-- ==== Sys2Proof/Word.lean ====
section
/-! DEFINITION. The word types of the machine and the two element sizes of a ZA tile. -/

namespace Sys2Proof

/-- One byte of memory. -/
abbrev Byte := BitVec 8

/-- One instruction word: every encoding is 32 bits (30_encoding.md R50). -/
abbrev Word := BitVec 32

/-- A byte address, and the width of the pc (10_state.md R32, 20_memory.md R41). -/
abbrev Addr := BitVec 64

/-- The element size of the destination tile: the 32-bit classes (8-bit integer variant) and the
64-bit classes (16-bit integer variant) (00_scope.md R13, 30_encoding.md R56, 90_conflicts.md C2). -/
inductive ESize where
  | e32
  | e64
  deriving DecidableEq, Repr

/-- `esize`: the width in bits of a tile element and of a source container (R56). -/
def ESize.bits : ESize → Nat
  | .e32 => 32
  | .e64 => 64

end Sys2Proof
end

