-- ==== Sys2Proof/Config.lean ====
section
/-! DEFINITION. What an implementation fixes: the vector length, the two features, the access control.
The page reads these from the implementation and never settles them, so they are plain data that a
state carries and that no step changes (00_scope.md R7, 92_eei_decisions.md D1). Every statement
quantifies over them. The spec leaves no result value open, so there is no free value here. -/

namespace Sys2Proof

/-- The legal values of `VL` (00_scope.md R8, 92_eei_decisions.md D2; assumption 1). -/
inductive VecLen where
  | vl128
  | vl256
  | vl512
  | vl1024
  | vl2048
  deriving DecidableEq, Repr

/-- `VL` in bits. -/
def VecLen.bits : VecLen → Nat
  | .vl128 => 128
  | .vl256 => 256
  | .vl512 => 512
  | .vl1024 => 1024
  | .vl2048 => 2048

/-- The number of ZA array vectors, `VL/8` (10_state.md R26). -/
def VecLen.zaVectors (vl : VecLen) : Nat := vl.bits / 8

/-- The parameters of the implementation (70_reset_and_hazards.md R120, first four items). -/
structure Config where
  /-- `VL`, the value of `CurrentVL()` (R7). -/
  vl : VecLen
  /-- `IsFeatureImplemented(FEAT_SME_MOP4)` (R7). -/
  haveMOP4 : Bool
  /-- `IsFeatureImplemented(FEAT_SME_I16I64)` (R7). -/
  haveI16I64 : Bool
  /-- `SME_ACCESS_ENABLED`: the whole privilege-dependent part of the enable check
  (60_exceptions.md R102, R109). -/
  smeAccessEnabled : Bool
  deriving DecidableEq, Repr

end Sys2Proof
end

