-- ==== Sys2Proof/Machine/State.lean ====
section
/-! DEFINITION. Everything the spec gives the machine, as plain data; the reasons a step can stop; the
state after reset. -/

namespace Sys2Proof.Machine

open Sys2Proof

/-- Memory as a list of (address, byte) pairs. Its canonical form is `Memory.wf`; an unlisted address
holds no byte (20_memory.md R45; assumption 9). -/
abbrev Memory := List Host.Cell

/-- Which test of the enable check failed (60_exceptions.md R102). -/
inductive AccessReason where
  /-- `SME_ACCESS_ENABLED` is false. -/
  | accessDisabled
  /-- `PSTATE.SM` is 0. -/
  | notStreaming
  /-- `PSTATE.ZA` is 0. -/
  | zaDisabled
  deriving DecidableEq, Repr

/-- The two fault outcomes of an instruction. Each is terminal, leaves all state unchanged and records
the pc and the instruction word (60_exceptions.md R104, R107; assumption 15). -/
inductive Fault where
  /-- Raised by each of the eight forms when its feature test fails (R57, R101). Safe: the spec ends
  the run here. -/
  | undefined (pc : Addr) (word : Word)
  /-- Raised by each of the eight forms when its enable check fails (R102). Safe: the spec ends the
  run here. -/
  | smeAccess (reason : AccessReason) (pc : Addr) (word : Word)
  deriving DecidableEq, Repr

/-- Why the model gives a step no meaning. -/
inductive Refusal where
  /-- An instruction without a meaning. No arm of exec answers it any more. Safe. -/
  | notModelled (mnemonic : String)
  /-- Raised by step on a word that matches no row of the opcode map (30_encoding.md R60). Safe. -/
  | outsideSpec (pc : Addr) (word : Word)
  /-- Raised by fetch when PROGRAM_BASE is no multiple of 4 or the end address does not exist
  (20_memory.md R45). Safe. -/
  | badProgram (base : Addr) (length : Nat)
  /-- Raised by fetch when the pc is neither a word address of the program nor its end address
  (20_memory.md R43, 70_reset_and_hazards.md R124). Safe. -/
  | badPc (pc : Addr)
  /-- Raised by fetch when a byte of the program text is missing from memory, which no launch
  leaves so (20_memory.md R41; assumption 12). Safe. -/
  | missingWord (pc : Addr)
  /-- Raised by fetch when the pc is the end address: the run has ended normally and there is no
  further step (70_reset_and_hazards.md R124; assumption 11). Safe. -/
  | endOfRun (pc : Addr)
  deriving DecidableEq, Repr

/-- The registers whose width is the vector length. -/
structure VectorState (vl : VecLen) where
  /-- Z0 to Z31, `VL` bits each (10_state.md R20, R21). -/
  z : Vector (BitVec vl.bits) 32
  /-- The ZA array: `VL/8` vectors of `VL` bits (10_state.md R26). -/
  za : Vector (BitVec vl.bits) vl.zaVectors
  deriving DecidableEq, Repr

/-- The state of the machine (10_state.md R33, 70_reset_and_hazards.md R120). -/
structure State where
  /-- `VL`, the two features, the access control; no step changes them (00_scope.md R7). -/
  cfg : Config
  /-- `PROGRAM_BASE` (20_memory.md R45). -/
  programBase : Addr
  /-- The length of `PROGRAM_WORDS`; the words are the bytes of `mem` at `programBase` onward (R45). -/
  programLength : Nat
  /-- The address space, read by fetch only (20_memory.md R41). -/
  mem : Memory
  /-- Z0 to Z31 and the ZA array (10_state.md R20, R26). -/
  vec : VectorState cfg.vl
  /-- `PSTATE.SM`: streaming mode (10_state.md R29). -/
  pstateSM : Bool
  /-- `PSTATE.ZA`: ZA storage enabled (10_state.md R29). -/
  pstateZA : Bool
  /-- The byte address of the instruction being executed (10_state.md R32). -/
  pc : Addr
  deriving DecidableEq, Repr

/-- The state after reset. The spec gives no reset value at all (10_state.md R34,
70_reset_and_hazards.md R120): the values are those named in assumptions 1 to 9. -/
def State.reset : State where
  cfg := ⟨.vl128, true, true, true⟩
  programBase := 0
  programLength := 0
  mem := []
  vec := ⟨Vector.replicate 32 0, Vector.replicate _ 0⟩
  pstateSM := false
  pstateZA := false
  pc := 0

/-- The three outcomes of a step of this machine. -/
abbrev Outcome := Host.Outcome State Fault Refusal

end Sys2Proof.Machine
end

