-- ==== Sys2Proof/Machine/Flags.lean ====
section
/-! DEFINITION. The conditions an instruction tests. There is no flag, condition code or predicate to
compute (10_state.md R28, 40_usmop4a.md R76): the only status bits are the two that the enable check
reads. -/

namespace Sys2Proof.Machine

open Sys2Proof

/-- The feature test of a form, by its element size (30_encoding.md R57). -/
def implemented (cfg : Config) : ESize → Bool
  | .e32 => cfg.haveMOP4
  | .e64 => cfg.haveMOP4 && cfg.haveI16I64

/-- `CheckStreamingSVEAndZAEnabled()`: the first test that fails, in the spec's order, or none
(60_exceptions.md R102; assumption 14). -/
def State.enableCheck (s : State) : Option AccessReason :=
  if s.cfg.smeAccessEnabled = false then some .accessDisabled
  else if s.pstateSM = false then some .notStreaming
  else if s.pstateZA = false then some .zaDisabled
  else none

end Sys2Proof.Machine
end

