-- ==== Sys2Proof/Syntax.lean ====
section
/-! DEFINITION. The instruction as syntax: one constructor for each row of spec/opcode_table.json. -/

namespace Sys2Proof

/-- The eight forms of USMOP4A (40_usmop4a.md R80 to R87). The letter is the tile's element size
(`S` 32 bits, `D` 64 bits), the two digits are `nreg` and `mreg`. The operands are the decode
variables of 30_encoding.md R54: the tile number `da`, the first register `n` of the first source
and the first register `m` of the second. -/
inductive Instr where
  /-- 32-bit, single and multiple vectors (R80). -/
  | usmop4aS12 (da : Fin 4) (n m : Fin 32)
  /-- 32-bit, single vectors (R81). -/
  | usmop4aS11 (da : Fin 4) (n m : Fin 32)
  /-- 32-bit, multiple and single vectors (R82). -/
  | usmop4aS21 (da : Fin 4) (n m : Fin 32)
  /-- 32-bit, multiple vectors (R83). -/
  | usmop4aS22 (da : Fin 4) (n m : Fin 32)
  /-- 64-bit, single and multiple vectors (R84). -/
  | usmop4aD12 (da : Fin 8) (n m : Fin 32)
  /-- 64-bit, single vectors (R85). -/
  | usmop4aD11 (da : Fin 8) (n m : Fin 32)
  /-- 64-bit, multiple and single vectors (R86). -/
  | usmop4aD21 (da : Fin 8) (n m : Fin 32)
  /-- 64-bit, multiple vectors (R87). -/
  | usmop4aD22 (da : Fin 8) (n m : Fin 32)
  deriving DecidableEq, Repr

end Sys2Proof
end

