-- ==== Sys2Proof/WellFormed.lean ====
section
/-! DEFINITION. Which instructions have an encoding: an assembler must reject the others
(30_encoding.md R54, R62). That a tile number is below 4 or below 8 is in the types. -/

namespace Sys2Proof

/-- A first source register: even, and one of Z0 to Z15 (30_encoding.md R54, R62). -/
def firstRegisterOk (n : Fin 32) : Bool := n.val % 2 == 0 && n.val < 16

/-- A second source register: even, and one of Z16 to Z31 (30_encoding.md R54, R62). -/
def secondRegisterOk (m : Fin 32) : Bool := m.val % 2 == 0 && 16 ≤ m.val

/-- The instruction has an encoding. -/
def Instr.wellFormed : Instr → Bool
  | .usmop4aS12 _ n m => firstRegisterOk n && secondRegisterOk m
  | .usmop4aS11 _ n m => firstRegisterOk n && secondRegisterOk m
  | .usmop4aS21 _ n m => firstRegisterOk n && secondRegisterOk m
  | .usmop4aS22 _ n m => firstRegisterOk n && secondRegisterOk m
  | .usmop4aD12 _ n m => firstRegisterOk n && secondRegisterOk m
  | .usmop4aD11 _ n m => firstRegisterOk n && secondRegisterOk m
  | .usmop4aD21 _ n m => firstRegisterOk n && secondRegisterOk m
  | .usmop4aD22 _ n m => firstRegisterOk n && secondRegisterOk m

end Sys2Proof
end

