-- ==== Sys2Proof/Decode.lean ====
section
/-! DEFINITION. From bytes to an instruction or a refusal by name, and the encoder back, both from the
opcode map of 30_encoding.md R58. -/

namespace Sys2Proof

/-- Why bytes are no instruction of the spec. -/
inductive DecodeError where
  /-- Fewer than the four bytes of a word (R50). -/
  | tooFewBytes
  /-- The word matches no row of R58, so it is outside the spec (R60). -/
  | matchesNoRow (w : Word)
  deriving DecidableEq, Repr

/-- One row of the opcode map: a word is the row's when `W AND mask = match` (R58). -/
structure OpcodeRow where
  matchBits : Word
  mask : Word
  /-- The instruction read from the fields of a word of this row. -/
  read : Word → Instr

/-- `W AND mask = match` (R58). -/
def OpcodeRow.hits (r : OpcodeRow) (w : Word) : Bool := w &&& r.mask == r.matchBits

/-- The field `Zm = W[19:17]` (R58). -/
def fieldZm (w : Word) : BitVec 3 := w.extractLsb' 17 3

/-- The field `Zn = W[8:6]` (R58). -/
def fieldZn (w : Word) : BitVec 3 := w.extractLsb' 6 3

/-- `da = UInt(ZAda)` with `ZAda = W[1:0]`, format MOP4_S (R54, R58). -/
def tileS (w : Word) : Fin 4 := (w.extractLsb' 0 2).toFin

/-- `da = UInt(ZAda)` with `ZAda = W[2:0]`, format MOP4_D (R54, R58). -/
def tileD (w : Word) : Fin 8 := (w.extractLsb' 0 3).toFin

/-- `n = UInt('0'::Zn::'0')` (R54). -/
def firstRegister (w : Word) : Fin 32 := (0#1 ++ fieldZn w ++ 0#1).toFin

/-- `m = UInt('1'::Zm::'0')` (R54). -/
def secondRegister (w : Word) : Fin 32 := (1#1 ++ fieldZm w ++ 0#1).toFin

/-- The eight rows of the opcode map, in the page's order (R58). -/
def opcodeTable : List OpcodeRow :=
  [ ⟨0x81108000, 0xFFF1FE3C, fun w => .usmop4aS12 (tileS w) (firstRegister w) (secondRegister w)⟩,
    ⟨0x81008000, 0xFFF1FE3C, fun w => .usmop4aS11 (tileS w) (firstRegister w) (secondRegister w)⟩,
    ⟨0x81008200, 0xFFF1FE3C, fun w => .usmop4aS21 (tileS w) (firstRegister w) (secondRegister w)⟩,
    ⟨0x81108200, 0xFFF1FE3C, fun w => .usmop4aS22 (tileS w) (firstRegister w) (secondRegister w)⟩,
    ⟨0xA1D00008, 0xFFF1FE38, fun w => .usmop4aD12 (tileD w) (firstRegister w) (secondRegister w)⟩,
    ⟨0xA1C00008, 0xFFF1FE38, fun w => .usmop4aD11 (tileD w) (firstRegister w) (secondRegister w)⟩,
    ⟨0xA1C00208, 0xFFF1FE38, fun w => .usmop4aD21 (tileD w) (firstRegister w) (secondRegister w)⟩,
    ⟨0xA1D00208, 0xFFF1FE38, fun w => .usmop4aD22 (tileD w) (firstRegister w) (secondRegister w)⟩ ]

/-- The instruction the first row of `rows` that hits reads from the word. -/
def decodeWith (rows : List OpcodeRow) (w : Word) : Except DecodeError Instr :=
  match rows.find? (·.hits w) with
  | some r => .ok (r.read w)
  | none => .error (.matchesNoRow w)

/-- Decoding one word (R58, R60). -/
def decodeWord (w : Word) : Except DecodeError Instr := decodeWith opcodeTable w

/-- Four bytes as a word, the one at the lowest address least significant (20_memory.md R42). -/
def wordOfBytes (b0 b1 b2 b3 : Byte) : Word := b3 ++ b2 ++ b1 ++ b0

/-- The four bytes of a word in memory order (20_memory.md R42). -/
def bytesOfWord (w : Word) : List Byte :=
  [w.extractLsb' 0 8, w.extractLsb' 8 8, w.extractLsb' 16 8, w.extractLsb' 24 8]

/-- Decoding the bytes at the front of a list: the instruction and the bytes after it. -/
def decodeBytes : List Byte → Except DecodeError (Instr × List Byte)
  | b0 :: b1 :: b2 :: b3 :: rest =>
    match decodeWord (wordOfBytes b0 b1 b2 b3) with
    | .ok i => .ok (i, rest)
    | .error e => .error e
  | _ => .error .tooFewBytes

/-- A word of a row: its match bits with the three fields put in place. The first source's register
is twice `Zn`, the second's is 16 more than twice `Zm` (R54, R58). -/
def encodeFields (matchBits : Word) (da : Nat) (n m : Fin 32) : Word :=
  matchBits ||| BitVec.ofNat 32 da ||| BitVec.ofNat 32 (n.val / 2) <<< 6
    ||| BitVec.ofNat 32 ((m.val - 16) / 2) <<< 17

/-- The word of a well-formed instruction (R58). -/
def encode : Instr → Word
  | .usmop4aS12 da n m => encodeFields 0x81108000 da n m
  | .usmop4aS11 da n m => encodeFields 0x81008000 da n m
  | .usmop4aS21 da n m => encodeFields 0x81008200 da n m
  | .usmop4aS22 da n m => encodeFields 0x81108200 da n m
  | .usmop4aD12 da n m => encodeFields 0xA1D00008 da n m
  | .usmop4aD11 da n m => encodeFields 0xA1C00008 da n m
  | .usmop4aD21 da n m => encodeFields 0xA1C00208 da n m
  | .usmop4aD22 da n m => encodeFields 0xA1D00208 da n m

/-- The instruction the decoder reads from an instruction whose bits are `w` (its low `nbits`, every
higher bit zero), laid out as memory holds it. -/
def decodeTableWord (nbits w : Nat) : Option Instr :=
  match decodeBytes (bytesOfWord (BitVec.ofNat 32 (w % 2 ^ nbits))) with
  | .ok (i, _) => some i
  | .error _ => none

end Sys2Proof
end

