-- ==== Sys2Proof/Machine/Operands.lean ====
section
/-! DEFINITION. Operand forms: elements of a vector, the shape of a tile, and the four-way dot product of
two containers. -/

namespace Sys2Proof.Machine

open Sys2Proof

/-- `Elem(v, i, w)`, the page's `v[i*:w]`: the `i`-th `w`-bit element of `v`, counting from the least
significant end (00_scope.md R10, R12). -/
def elem {l : Nat} (v : BitVec l) (i w : Nat) : BitVec w := v.extractLsb' (i * w) w

/-- The `i`-th vector of an array of vectors, 0 from its length on. -/
def vectorAt {l k : Nat} (array : Vector (BitVec l) k) (i : Nat) : BitVec l := array[i]?.getD 0

/-- The vector of `out` bits whose elements `0 .. count-1` of width `w` are given by `f`. -/
def packElems (w out : Nat) (f : Nat → BitVec w) : Nat → BitVec out
  | 0 => 0
  | k + 1 => packElems w out f k ||| (f k).setWidth out <<< (k * w)

/-- `w = esize/4`: the width of a source element (00_scope.md R13). -/
def sourceBits (es : ESize) : Nat := es.bits / 4

/-- `dim = (VL DIV 2) DIV esize`: the rows, and the columns, of a quarter-tile (00_scope.md R13). -/
def dim (vl : VecLen) (es : ESize) : Nat := vl.bits / 2 / es.bits

/-- `2*dim`: the rows, and the columns, of a tile (10_state.md R24). -/
def side (vl : VecLen) (es : ESize) : Nat := 2 * dim vl es

/-- `esize/8`: how many tiles of this element size there are, and the step from one row of a tile to
the next in the ZA array (10_state.md R25, R26). -/
def tileStride (es : ESize) : Nat := es.bits / 8

/-- One product of the sum: the first source's element unsigned, the second's signed, multiplied
exactly (40_usmop4a.md R74). -/
def elemProduct {l : Nat} (w : Nat) (a b : BitVec l) (R C k : Nat) : Int :=
  (elem a (4 * R + k) w).toNat * (elem b (4 * C + k) w).toInt

/-- The exact four-way dot product of container `R` of the first source with container `C` of the
second (40_usmop4a.md R72). -/
def containerDot {l : Nat} (w : Nat) (a b : BitVec l) (R C : Nat) : Int :=
  elemProduct w a b R C 0 + elemProduct w a b R C 1 + elemProduct w a b R C 2 + elemProduct w a b R C 3

/-- The register of a source of `count` registers that a half of the tile uses: the first for half 0,
the last for half 1 (40_usmop4a.md R72: `n + (nreg-1)*c`). -/
def sourceRegister (first : Fin 32) (count half : Nat) : Fin 32 :=
  first + Fin.ofNat 32 ((count - 1) * half)

end Sys2Proof.Machine
end

