-- ==== Sys2Proof/Machine/Ops.lean ====
section
/-! DEFINITION. The named operations over memory, registers and tiles, raising a fault, fetching. -/

namespace Sys2Proof.Machine

open Sys2Proof

/-! ## Memory -/

/-- The canonical form: addresses strictly rising and of 64 bits. An unlisted address holds no byte,
so no entry can equal what it reads as (assumption 9). -/
abbrev Memory.wf (mem : Memory) : Prop :=
  mem.Pairwise (fun c d => c.1 < d.1) ∧ ∀ c ∈ mem, c.1 < 2 ^ 64

/-- The byte an address of a memory holds, if it holds one. -/
def Memory.lookup : Memory → Nat → Option Byte
  | [], _ => none
  | (a, b) :: rest, x => if a = x then some b else Memory.lookup rest x

/-- The memory with the byte at an address set, in canonical form. -/
def Memory.insert : Memory → Nat → Byte → Memory
  | [], x, v => [(x, v)]
  | (a, b) :: rest, x, v =>
    if x < a then (x, v) :: (a, b) :: rest
    else if x = a then (a, v) :: rest
    else (a, b) :: Memory.insert rest x v

/-- The byte at an address, if memory holds one there. -/
def Memory.read (mem : Memory) (a : Addr) : Option Byte := mem.lookup a.toNat

/-- Storing one byte. -/
def Memory.write (mem : Memory) (a : Addr) (b : Byte) : Memory := mem.insert a.toNat b

/-- `MemRead(addr, n)`: the `n` bytes from an address on (00_scope.md R11). -/
def Memory.readBytes (mem : Memory) (a : Addr) : Nat → Option (List Byte)
  | 0 => some []
  | k + 1 =>
    match mem.read a, Memory.readBytes mem (a + 1) k with
    | some b, some bs => some (b :: bs)
    | _, _ => none

/-- `MemWrite(addr, n, v)` on a list of bytes; used by no instruction (00_scope.md R11), only to place
a program. -/
def Memory.writeBytes (mem : Memory) (a : Addr) : List Byte → Memory
  | [] => mem
  | b :: bs => Memory.writeBytes (mem.write a b) (a + 1) bs

/-! ## Registers and tiles -/

/-- `Z[i]`: a scalable vector register; this machine never writes one (10_state.md R23). -/
def VectorState.readZ {vl : VecLen} (v : VectorState vl) (i : Fin 32) : BitVec vl.bits := v.z[i]

/-- `ZA[i]`: a vector of the ZA array (10_state.md R26). There is none from `VL/8` on; no tile row
names one. -/
def VectorState.readZa {vl : VecLen} (v : VectorState vl) (i : Nat) : BitVec vl.bits :=
  vectorAt v.za i

/-- The element at row `R` and column `C` of tile `t`: element `C` of the array vector
`ZA[t + R*(esize/8)]` (10_state.md R24, R26). -/
def VectorState.tileElem {vl : VecLen} (v : VectorState vl) (es : ESize) (t R C : Nat) :
    BitVec es.bits :=
  elem (v.readZa (t + R * tileStride es)) C es.bits

/-- Writing the whole of tile `t`: the array vectors of its rows get the given elements, every other
vector keeps its value (10_state.md R26, R27). -/
def VectorState.writeTile {vl : VecLen} (v : VectorState vl) (es : ESize) (t : Nat)
    (f : Nat → Nat → BitVec es.bits) : VectorState vl :=
  { v with
    za := Vector.ofFn fun i =>
      if i.val % tileStride es = t then
        packElems es.bits vl.bits (f (i.val / tileStride es)) (side vl es)
      else v.za[i] }

/-- A completed instruction: the vector registers it leaves, and `pc <- pc + 4` modulo 2^64
(10_state.md R32, R33). -/
def State.complete (s : State) (v : VectorState s.cfg.vl) : State :=
  { s with vec := v, pc := s.pc + 4 }

/-! ## Exceptions -/

/-- Raising a fault: the outcome records the pc and the word and is terminal; nothing is saved, no
handler runs, and there is no return (60_exceptions.md R101, R104, R107, R108). -/
def State.raise (s : State) (fault : Addr → Word → Fault) (word : Word) : Outcome :=
  .fault (fault s.pc word)

/-! ## The program -/

/-- The end address of the program as a number (20_memory.md R45). -/
def State.endAddress (s : State) : Nat := s.programBase.toNat + 4 * s.programLength

/-- PROGRAM_BASE is a multiple of 4 and the end address exists (20_memory.md R45). -/
def State.programOk (s : State) : Bool :=
  s.programBase.toNat % 4 == 0 && s.endAddress < 2 ^ 64

/-- The pc is a word address of the program (70_reset_and_hazards.md R124). -/
def State.atWord (s : State) : Bool :=
  s.programBase.toNat ≤ s.pc.toNat && s.pc.toNat < s.endAddress && s.pc.toNat % 4 == 0

/-- The pc is the end address (70_reset_and_hazards.md R124). -/
def State.atEnd (s : State) : Bool := s.pc.toNat == s.endAddress

/-- Fetching the four bytes at the pc, or why there is nothing to fetch (20_memory.md R41, R43, R45;
70_reset_and_hazards.md R124). -/
def State.fetch (s : State) : Except Refusal (List Byte) :=
  if s.programOk = false then .error (.badProgram s.programBase s.programLength)
  else if s.atEnd then .error (.endOfRun s.pc)
  else if s.atWord = false then .error (.badPc s.pc)
  else
    match s.mem.readBytes s.pc 4 with
    | some bs => .ok bs
    | none => .error (.missingWord s.pc)

/-- Launching a program from outside the machine: its words placed at an address, the pc on the first
of them, streaming mode and ZA enabled (70_reset_and_hazards.md R120, R121, 60_exceptions.md R110;
assumption 18). -/
def State.launch (s : State) (base : Addr) (words : List Word) : State :=
  { s with
    programBase := base
    programLength := words.length
    mem := s.mem.writeBytes base (words.flatMap bytesOfWord)
    pstateSM := true
    pstateZA := true
    pc := base }

/-- Where a one-word program is launched: at the pc where that is an address a program can have, else
at 0 (20_memory.md R45). -/
def State.launchBase (s : State) : Addr :=
  if s.pc.toNat % 4 = 0 ∧ s.pc.toNat + 4 < 2 ^ 64 then s.pc else 0

end Sys2Proof.Machine
end

