-- ==== Sys2Proof/Machine/Usmop4a.lean ====
section
/-! DEFINITION. The meaning of the eight forms of USMOP4A, over one shared operation. -/

namespace Sys2Proof.Machine

open Sys2Proof

/-- The new element at row `R` and column `C` of tile `da`: the old element plus the exact dot product,
modulo 2^esize. The column half picks the first source's register, the row half the second's
(40_usmop4a.md R72, R73, R74). -/
def VectorState.newElem {vl : VecLen} (v : VectorState vl) (es : ESize) (nreg mreg da : Nat)
    (n m : Fin 32) (R C : Nat) : BitVec es.bits :=
  let a := v.readZ (sourceRegister n nreg (C / dim vl es))
  let b := v.readZ (sourceRegister m mreg (R / dim vl es))
  BitVec.ofInt es.bits ((v.tileElem es da R C).toNat + containerDot (sourceBits es) a b R C)

/-- The whole tile replaced at once from values read before (40_usmop4a.md R75). -/
def VectorState.accumulate {vl : VecLen} (v : VectorState vl) (es : ESize) (nreg mreg da : Nat)
    (n m : Fin 32) : VectorState vl :=
  v.writeTile es da (v.newElem es nreg mreg da n m)

/-- One execution: feature test, enable check, then the new tile and the move to the next word
(40_usmop4a.md R70, 60_exceptions.md R103). `word` is the instruction's word, which a fault
records. -/
def usmop4a (es : ESize) (nreg mreg da : Nat) (n m : Fin 32) (word : Word) (s : State) : Outcome :=
  if implemented s.cfg es then
    match s.enableCheck with
    | none => .next (s.complete (s.vec.accumulate es nreg mreg da n m))
    | some reason => s.raise (.smeAccess reason) word
  else s.raise .undefined word

/-- 32-bit, single and multiple vectors (R80). -/
def execUsmop4aS12 (da : Fin 4) (n m : Fin 32) (s : State) : Outcome :=
  usmop4a .e32 1 2 da n m (encode (.usmop4aS12 da n m)) s

/-- 32-bit, single vectors (R81). -/
def execUsmop4aS11 (da : Fin 4) (n m : Fin 32) (s : State) : Outcome :=
  usmop4a .e32 1 1 da n m (encode (.usmop4aS11 da n m)) s

/-- 32-bit, multiple and single vectors (R82). -/
def execUsmop4aS21 (da : Fin 4) (n m : Fin 32) (s : State) : Outcome :=
  usmop4a .e32 2 1 da n m (encode (.usmop4aS21 da n m)) s

/-- 32-bit, multiple vectors (R83). -/
def execUsmop4aS22 (da : Fin 4) (n m : Fin 32) (s : State) : Outcome :=
  usmop4a .e32 2 2 da n m (encode (.usmop4aS22 da n m)) s

/-- 64-bit, single and multiple vectors (R84). -/
def execUsmop4aD12 (da : Fin 8) (n m : Fin 32) (s : State) : Outcome :=
  usmop4a .e64 1 2 da n m (encode (.usmop4aD12 da n m)) s

/-- 64-bit, single vectors (R85). -/
def execUsmop4aD11 (da : Fin 8) (n m : Fin 32) (s : State) : Outcome :=
  usmop4a .e64 1 1 da n m (encode (.usmop4aD11 da n m)) s

/-- 64-bit, multiple and single vectors (R86). -/
def execUsmop4aD21 (da : Fin 8) (n m : Fin 32) (s : State) : Outcome :=
  usmop4a .e64 2 1 da n m (encode (.usmop4aD21 da n m)) s

/-- 64-bit, multiple vectors (R87). -/
def execUsmop4aD22 (da : Fin 8) (n m : Fin 32) (s : State) : Outcome :=
  usmop4a .e64 2 2 da n m (encode (.usmop4aD22 da n m)) s

end Sys2Proof.Machine
end

