-- ==== Sys2Proof/Machine/Dispatch.lean ====
section
/-! DEFINITION. One arm per constructor of Instr. -/

namespace Sys2Proof.Machine

open Sys2Proof

def exec (i : Instr) (s : State) : Host.Outcome State Fault Refusal :=
  match i with
  | .usmop4aS12 da n m => Sys2Proof.Machine.execUsmop4aS12 da n m s
  | .usmop4aS11 da n m => Sys2Proof.Machine.execUsmop4aS11 da n m s
  | .usmop4aS21 da n m => Sys2Proof.Machine.execUsmop4aS21 da n m s
  | .usmop4aS22 da n m => Sys2Proof.Machine.execUsmop4aS22 da n m s
  | .usmop4aD12 da n m => Sys2Proof.Machine.execUsmop4aD12 da n m s
  | .usmop4aD11 da n m => Sys2Proof.Machine.execUsmop4aD11 da n m s
  | .usmop4aD21 da n m => Sys2Proof.Machine.execUsmop4aD21 da n m s
  | .usmop4aD22 da n m => Sys2Proof.Machine.execUsmop4aD22 da n m s

end Sys2Proof.Machine
end

