-- ==== Sys2Proof/Machine/Step.lean ====
section
/-! DEFINITION. One step of the machine, and the launch of a one-word program that the host asks for. -/

namespace Sys2Proof.Machine

open Sys2Proof

/-- One step: fetch, decode, execute (40_usmop4a.md R70). -/
def step (s : State) : Host.Outcome State Fault Refusal :=
  match s.fetch with
  | .error r => .refused r
  | .ok bytes =>
    match decodeBytes bytes with
    | .ok (i, _) => exec i s
    | .error (.matchesNoRow w) => .refused (.outsideSpec s.pc w)
    | .error .tooFewBytes => .refused (.missingWord s.pc)

/-- The state with a one-word program launched, so that the next step fetches and runs that word
(70_reset_and_hazards.md R120; assumption 18). -/
def State.withFetchWord (s : State) (nbits w : Nat) : State :=
  s.launch s.launchBase [BitVec.ofNat 32 (w % 2 ^ nbits)]

end Sys2Proof.Machine
end

