-- ==== Sys2Proof/Machine/PageText.lean ====
section
/-! DEFINITION. The page's decode constants and operation text, transcribed loop by loop (40_usmop4a.md
R71, 95_test_vectors.md S2), with the readings of 00_scope.md R12. No step runs it: the meanings follow
the closed form R72, and a statement says that the two agree. -/

namespace Sys2Proof.Machine

open Sys2Proof

/-- The decode variables of a form (30_encoding.md R54, R55, R56). -/
structure PageVars where
  esize : ESize
  nreg : Nat
  mreg : Nat
  n : Nat
  m : Nat
  da : Nat
  subOp : Bool
  op1Unsigned : Bool
  op2Unsigned : Bool
  deriving DecidableEq, Repr

/-- The decode variables each decode line sets (95_test_vectors.md S2). -/
def pageVars : Instr → PageVars
  | .usmop4aS12 da n m => ⟨.e32, 1, 2, n, m, da, false, true, false⟩
  | .usmop4aS11 da n m => ⟨.e32, 1, 1, n, m, da, false, true, false⟩
  | .usmop4aS21 da n m => ⟨.e32, 2, 1, n, m, da, false, true, false⟩
  | .usmop4aS22 da n m => ⟨.e32, 2, 2, n, m, da, false, true, false⟩
  | .usmop4aD12 da n m => ⟨.e64, 1, 2, n, m, da, false, true, false⟩
  | .usmop4aD11 da n m => ⟨.e64, 1, 1, n, m, da, false, true, false⟩
  | .usmop4aD21 da n m => ⟨.e64, 2, 1, n, m, da, false, true, false⟩
  | .usmop4aD22 da n m => ⟨.e64, 2, 2, n, m, da, false, true, false⟩

/-- `tilesize = 4*dim*dim*esize`. -/
def tileSize (vl : VecLen) (es : ESize) : Nat := 4 * dim vl es * dim vl es * es.bits

/-- `ZAtile{}(t, esize)`: the tile as one vector, its rows of `VL` bits one after the other, row 0
least significant (10_state.md R24, R26). -/
def VectorState.zaTile {vl : VecLen} (v : VectorState vl) (es : ESize) (t : Nat) :
    BitVec (tileSize vl es) :=
  packElems vl.bits _ (fun R => v.readZa (t + R * tileStride es)) (side vl es)

/-- `ZAtile{tilesize}(t, esize) = v` (10_state.md R24, R26, R27). -/
def VectorState.setZaTile {vl : VecLen} (v : VectorState vl) (es : ESize) (t : Nat)
    (tile : BitVec (tileSize vl es)) : VectorState vl :=
  { v with
    za := Vector.ofFn fun i =>
      if i.val % tileStride es = t then elem tile (i.val / tileStride es) vl.bits else v.za[i] }

/-- `v[i*:w] = x`: the vector with one element replaced (00_scope.md R12). -/
def setElem {l : Nat} (v : BitVec l) (i w : Nat) (x : BitVec w) : BitVec l :=
  (v &&& ~~~((BitVec.allOnes w).setWidth l <<< (i * w))) ||| x.setWidth l <<< (i * w)

/-- `if unsigned then UInt(x) else SInt(x)`. -/
def pageInteger {w : Nat} (isUnsigned : Bool) (x : BitVec w) : Int :=
  if isUnsigned then x.toNat else x.toInt

/-- The innermost loop: four products added one at a time, each addition wrapping at `esize` bits. -/
def pageSum {l : Nat} (p : PageVars) (op1 op2 : BitVec l) (rowIdx colIdx : Nat)
    (sum : BitVec p.esize.bits) : BitVec p.esize.bits :=
  (List.range 4).foldl (fun sum k =>
    let op1elt := elem op1 (4 * rowIdx + k) (p.esize.bits / 4)
    let op2elt := elem op2 (4 * colIdx + k) (p.esize.bits / 4)
    let prod := pageInteger p.op1Unsigned op1elt * pageInteger p.op2Unsigned op2elt
    sum + BitVec.ofInt p.esize.bits (if p.subOp then -prod else prod)) sum

/-- The three outer loops, from any initial value of the variable `result`, which the page declares
without one (93_implementation_defined.md U8). -/
def VectorState.pageResult {vl : VecLen} (v : VectorState vl) (p : PageVars)
    (result : BitVec (tileSize vl p.esize)) : BitVec (tileSize vl p.esize) :=
  let d := dim vl p.esize
  let op3 := v.zaTile p.esize p.da
  (List.range 4).foldl (fun result outprod =>
    let rowHv := outprod / 2
    let colHv := outprod % 2
    let op1 := v.readZ (Fin.ofNat 32 (p.n + (p.nreg - 1) * colHv))
    let op2 := v.readZ (Fin.ofNat 32 (p.m + (p.mreg - 1) * rowHv))
    (List.range d).foldl (fun result row =>
      (List.range d).foldl (fun result col =>
        let rowIdx := rowHv * d + row
        let colIdx := colHv * d + col
        let tileIdx := rowIdx * d * 2 + colIdx
        setElem result tileIdx p.esize.bits
          (pageSum p op1 op2 rowIdx colIdx (elem op3 tileIdx p.esize.bits))) result) result) result

/-- What the page's operation text leaves in the vector registers, its enable check passed. -/
def VectorState.pageOperation {vl : VecLen} (v : VectorState vl) (p : PageVars)
    (result : BitVec (tileSize vl p.esize)) : VectorState vl :=
  v.setZaTile p.esize p.da (v.pageResult p result)

end Sys2Proof.Machine
end

