-- ==== Sys2Proof/Safety.lean ====
section
/-! DEFINITION. The terms statements are written in: what an instruction names, when it executes, and
which states a launch and its run can be in. -/

namespace Sys2Proof.Machine

open Sys2Proof

/-! ## What an instruction names -/

/-- The element size of a form (30_encoding.md R56). -/
def formSize : Instr → ESize
  | .usmop4aS12 .. | .usmop4aS11 .. | .usmop4aS21 .. | .usmop4aS22 .. => .e32
  | .usmop4aD12 .. | .usmop4aD11 .. | .usmop4aD21 .. | .usmop4aD22 .. => .e64

/-- The destination tile's number (30_encoding.md R54). -/
def formTile : Instr → Nat
  | .usmop4aS12 da _ _ | .usmop4aS11 da _ _ | .usmop4aS21 da _ _ | .usmop4aS22 da _ _ => da.val
  | .usmop4aD12 da _ _ | .usmop4aD11 da _ _ | .usmop4aD21 da _ _ | .usmop4aD22 da _ _ => da.val

/-- The registers of the first source, by number (30_encoding.md R55). -/
def firstSource : Instr → List Nat
  | .usmop4aS12 _ n _ | .usmop4aS11 _ n _ | .usmop4aD12 _ n _ | .usmop4aD11 _ n _ => [n.val]
  | .usmop4aS21 _ n _ | .usmop4aS22 _ n _ | .usmop4aD21 _ n _ | .usmop4aD22 _ n _ =>
    [n.val, n.val + 1]

/-- The registers of the second source, by number (30_encoding.md R55). -/
def secondSource : Instr → List Nat
  | .usmop4aS11 _ _ m | .usmop4aS21 _ _ m | .usmop4aD11 _ _ m | .usmop4aD21 _ _ m => [m.val]
  | .usmop4aS12 _ _ m | .usmop4aS22 _ _ m | .usmop4aD12 _ _ m | .usmop4aD22 _ _ m =>
    [m.val, m.val + 1]

/-- The register of a source that a half of the tile uses: the `half`-th of a pair, or the only one
(40_usmop4a.md R73). -/
def registerFor (source : List Nat) (half : Nat) : Fin 32 :=
  Fin.ofNat 32 (source.getD half (source.headD 0))

/-! ## When an instruction executes -/

/-- The features a form needs are implemented (30_encoding.md R57). -/
abbrev HasFeatures (cfg : Config) (es : ESize) : Prop :=
  cfg.haveMOP4 = true ∧ (es = .e64 → cfg.haveI16I64 = true)

/-- Access, streaming mode and ZA are all enabled (60_exceptions.md R102; the access control is decision
D11, assumptions 3 and 14). -/
abbrev State.Enabled (s : State) : Prop :=
  s.cfg.smeAccessEnabled = true ∧ s.pstateSM = true ∧ s.pstateZA = true

/-- What must hold for a form to execute rather than fault (70_reset_and_hazards.md R121 (a), (b)). -/
abbrev State.Ready (s : State) (es : ESize) : Prop := HasFeatures s.cfg es ∧ s.Enabled

/-! ## The states of a launch and its run -/

/-- Every byte of the program text is in memory (20_memory.md R41, R45). -/
abbrev State.Loaded (s : State) : Prop :=
  ∀ k < 4 * s.programLength, (s.mem.read (s.programBase + BitVec.ofNat 64 k)).isSome = true

/-- The states of a launch that the rules accept, and of the run from it: canonical memory, a program
the rules allow and wholly in memory, the pc on one of its words or at its end (20_memory.md R43, R45,
70_reset_and_hazards.md R124). -/
abbrev State.Inv (s : State) : Prop :=
  s.mem.wf ∧ s.programOk = true ∧ (s.atWord = true ∨ s.atEnd = true) ∧ s.Loaded

/-- How many words of the program are still to run. -/
def State.wordsLeft (s : State) : Nat := (s.endAddress - s.pc.toNat) / 4

/-- The match and the mask of each row of the opcode map of 30_encoding.md R58, in the page's order. -/
def matchAndMask : List (Word × Word) :=
  [(0x81108000, 0xFFF1FE3C), (0x81008000, 0xFFF1FE3C), (0x81008200, 0xFFF1FE3C),
   (0x81108200, 0xFFF1FE3C), (0xA1D00008, 0xFFF1FE38), (0xA1C00008, 0xFFF1FE38),
   (0xA1C00208, 0xFFF1FE38), (0xA1D00208, 0xFFF1FE38)]

/-- The word `w` stands in memory at an address, least significant byte first (20_memory.md R42). -/
abbrev Memory.HoldsWord (mem : Memory) (a : Addr) (w : Word) : Prop :=
  mem.read a = some (w.extractLsb' 0 8) ∧ mem.read (a + 1) = some (w.extractLsb' 8 8) ∧
    mem.read (a + 2) = some (w.extractLsb' 16 8) ∧ mem.read (a + 3) = some (w.extractLsb' 24 8)

/-- The pc is on a word of a program the rules allow, and that word is `w`. -/
abbrev State.OnWord (s : State) (w : Word) : Prop :=
  s.programOk = true ∧ s.atWord = true ∧ s.mem.HoldsWord s.pc w

end Sys2Proof.Machine
end

