-- ==== Sys2Proof/Certificates/Slice0/Obligations.lean ====
section
/-! DEFINITION. The statements, from the numbered rules of spec/. -/

open Sys2Proof Sys2Proof.Machine

/-! ## Encoding -/

/-- Eight words of 95_test_vectors.md V1, one for every row of R58, decode as V1 says, and a word of V2 is refused. -/
def Obligations.SampleWordsDecode : Prop :=
  decodeWord 0x81128042 = .ok (.usmop4aS12 2 2 18) ∧
  decodeWord 0x810E81C3 = .ok (.usmop4aS11 3 14 30) ∧
  decodeWord 0x810A82C1 = .ok (.usmop4aS21 1 6 26) ∧
  decodeWord 0x811E83C3 = .ok (.usmop4aS22 3 14 30) ∧
  decodeWord 0xA1DE000C = .ok (.usmop4aD12 4 0 30) ∧
  decodeWord 0xA1C4008D = .ok (.usmop4aD11 5 4 20) ∧
  decodeWord 0xA1C4030E = .ok (.usmop4aD21 6 8 20) ∧
  decodeWord 0xA1D0034B = .ok (.usmop4aD22 3 10 16) ∧
  decodeWord 0x81008010 = .error (.matchesNoRow 0x81008010)

/-- R58: a word is a form exactly when it matches that form's row, and its fields are at the places
the row gives. -/
def Obligations.OpcodeMapDecodes : Prop :=
  ∀ w : Word,
    (∀ da n m, decodeWord w = .ok (.usmop4aS12 da n m) ↔ w &&& 0xFFF1FE3C = 0x81108000 ∧
      da.val = (w.extractLsb' 0 2).toNat ∧ n.val = 2 * (w.extractLsb' 6 3).toNat ∧
      m.val = 16 + 2 * (w.extractLsb' 17 3).toNat) ∧
    (∀ da n m, decodeWord w = .ok (.usmop4aS11 da n m) ↔ w &&& 0xFFF1FE3C = 0x81008000 ∧
      da.val = (w.extractLsb' 0 2).toNat ∧ n.val = 2 * (w.extractLsb' 6 3).toNat ∧
      m.val = 16 + 2 * (w.extractLsb' 17 3).toNat) ∧
    (∀ da n m, decodeWord w = .ok (.usmop4aS21 da n m) ↔ w &&& 0xFFF1FE3C = 0x81008200 ∧
      da.val = (w.extractLsb' 0 2).toNat ∧ n.val = 2 * (w.extractLsb' 6 3).toNat ∧
      m.val = 16 + 2 * (w.extractLsb' 17 3).toNat) ∧
    (∀ da n m, decodeWord w = .ok (.usmop4aS22 da n m) ↔ w &&& 0xFFF1FE3C = 0x81108200 ∧
      da.val = (w.extractLsb' 0 2).toNat ∧ n.val = 2 * (w.extractLsb' 6 3).toNat ∧
      m.val = 16 + 2 * (w.extractLsb' 17 3).toNat) ∧
    (∀ da n m, decodeWord w = .ok (.usmop4aD12 da n m) ↔ w &&& 0xFFF1FE38 = 0xA1D00008 ∧
      da.val = (w.extractLsb' 0 3).toNat ∧ n.val = 2 * (w.extractLsb' 6 3).toNat ∧
      m.val = 16 + 2 * (w.extractLsb' 17 3).toNat) ∧
    (∀ da n m, decodeWord w = .ok (.usmop4aD11 da n m) ↔ w &&& 0xFFF1FE38 = 0xA1C00008 ∧
      da.val = (w.extractLsb' 0 3).toNat ∧ n.val = 2 * (w.extractLsb' 6 3).toNat ∧
      m.val = 16 + 2 * (w.extractLsb' 17 3).toNat) ∧
    (∀ da n m, decodeWord w = .ok (.usmop4aD21 da n m) ↔ w &&& 0xFFF1FE38 = 0xA1C00208 ∧
      da.val = (w.extractLsb' 0 3).toNat ∧ n.val = 2 * (w.extractLsb' 6 3).toNat ∧
      m.val = 16 + 2 * (w.extractLsb' 17 3).toNat) ∧
    (∀ da n m, decodeWord w = .ok (.usmop4aD22 da n m) ↔ w &&& 0xFFF1FE38 = 0xA1D00208 ∧
      da.val = (w.extractLsb' 0 3).toNat ∧ n.val = 2 * (w.extractLsb' 6 3).toNat ∧
      m.val = 16 + 2 * (w.extractLsb' 17 3).toNat)

/-- R54, R55: the registers and the tile of a decoded word. The bit `N` (bit 9) and the bit `M` (bit
20) say whether a source is one register or a pair; the first source stays in Z0 to Z15, the second in
Z16 to Z31. -/
def Obligations.OperandsFromFields : Prop :=
  ∀ w i, decodeWord w = .ok i →
    firstSource i = (if w.getLsbD 9 then
        [2 * (w.extractLsb' 6 3).toNat, 2 * (w.extractLsb' 6 3).toNat + 1]
      else [2 * (w.extractLsb' 6 3).toNat]) ∧
    secondSource i = (if w.getLsbD 20 then
        [16 + 2 * (w.extractLsb' 17 3).toNat, 16 + 2 * (w.extractLsb' 17 3).toNat + 1]
      else [16 + 2 * (w.extractLsb' 17 3).toNat]) ∧
    formTile i = (match formSize i with
      | .e32 => (w.extractLsb' 0 2).toNat
      | .e64 => (w.extractLsb' 0 3).toNat) ∧
    (∀ r ∈ firstSource i, r ≤ 15) ∧ (∀ r ∈ secondSource i, 16 ≤ r ∧ r ≤ 31)

/-- R59: no word matches two rows, and a decoder may test the rows in any order. -/
def Obligations.RowOrderIrrelevant : Prop :=
  (∀ w, ∀ j k, j < 8 → k < 8 → (∃ r, opcodeTable[j]? = some r ∧ r.hits w = true) →
    (∃ r, opcodeTable[k]? = some r ∧ r.hits w = true) → j = k) ∧
  ∀ rows : List OpcodeRow, rows.Perm opcodeTable → ∀ w, decodeWith rows w = decodeWord w

/-- 95_test_vectors.md V1: encoding then decoding returns the instruction, for every well-formed
instruction of every form. -/
def Obligations.DecodeEncodeIdentity : Prop :=
  ∀ i : Instr, i.wellFormed = true →
    decodeWord (encode i) = .ok i ∧
    ∀ rest, decodeBytes (bytesOfWord (encode i) ++ rest) = .ok (i, rest)

/-- 95_test_vectors.md V1: decoding then encoding returns the word, and what is decoded is well
formed. -/
def Obligations.EncodeDecodeIdentity : Prop :=
  ∀ w i, decodeWord w = .ok i → i.wellFormed = true ∧ encode i = w

/-- R61: no value of a field is reserved. The words of rows 1 to 4 are 256 each, those of rows 5 to 8
are 512 each, every one decodes, and 3072 words decode in all. -/
def Obligations.DecodableWordCount : Prop :=
  (∀ k < 8, ∃ words : List Word, words.Nodup ∧ words.length = (if k < 4 then 256 else 512) ∧
    ∀ w, w ∈ words ↔ ∃ r, opcodeTable[k]? = some r ∧ r.hits w = true ∧ decodeWord w = .ok (r.read w)) ∧
  ∃ words : List Word, words.Nodup ∧ words.length = 3072 ∧
    ∀ w, w ∈ words ↔ ∃ i, decodeWord w = .ok i

/-! ## Steps, the program, the launch -/

/-- A step runs the decoded instruction: with the pc on a word of the program whose bytes, least
significant first, decode to `i`, `step` is `exec i` (R42, R70). -/
def Obligations.StepRunsDecodedInstruction : Prop :=
  ∀ s w i, s.OnWord w → decodeWord w = .ok i → step s = exec i s

/-- R60, R124 (decision D10, assumption 13): a fetched word that matches no row is refused, whatever the
features and the enables. -/
def Obligations.WordOutsideTableRefused : Prop :=
  ∀ s w, s.OnWord w → (∀ r ∈ matchAndMask, w &&& r.2 ≠ r.1) →
    step s = .refused (.outsideSpec s.pc w)

/-- R43, R45, R124 (decisions D6, D7, D14; assumptions 8, 9, 11): which launches are refused, and that
a run at the end address has ended. -/
def Obligations.LaunchAndEndRefusals : Prop :=
  ∀ s : State,
    if s.programBase.toNat % 4 ≠ 0 ∨ 2 ^ 64 ≤ s.programBase.toNat + 4 * s.programLength then
      step s = .refused (.badProgram s.programBase s.programLength)
    else if s.pc.toNat = s.programBase.toNat + 4 * s.programLength then
      step s = .refused (.endOfRun s.pc)
    else (¬ ∃ i < s.programLength, s.pc.toNat = s.programBase.toNat + 4 * i) →
      step s = .refused (.badPc s.pc)

/-- R41, R42, R103 (decisions D7, D8, D14; assumptions 9 to 11): in the states of a launch and its run,
fetch answers the four bytes of the word the pc is on, least significant first, unless the run has
ended; it never fails on a word of the program. -/
def Obligations.FetchFindsWordOrEnd : Prop :=
  ∀ s : State, s.Inv →
    (∃ w, s.OnWord w ∧ s.fetch = .ok (bytesOfWord w)) ∨ step s = .refused (.endOfRun s.pc)

/-- Every step keeps the states of a launch and its run: memory canonical, the program allowed and
wholly in memory, the pc on one of its words or at its end (R43, R45, R48, R124). -/
def Obligations.StepKeepsLaunchStates : Prop :=
  ∀ s t : State, s.Inv → step s = .next t → t.Inv

/-- The state after reset is one of them. Its values are the model's (assumptions 1 to 9). -/
def Obligations.ResetIsLaunchState : Prop := State.reset.Inv

/-- R124 (decision D14, assumption 11: a run ends where the program does): a run of a program ends after
at most as many steps as words are left; there is no loop and no divergence. -/
def Obligations.RunEndsWithinProgram : Prop :=
  ∀ s : State, s.Inv → ∀ t, core.run (s.wordsLeft + 1) s ≠ .next t

/-- R46, R88, R124 (decision D6, assumption 8, for the pc; D9, assumption 17, for the order): after `k`
completed steps the pc has moved `k` words, and nothing but the ZA array and the pc has changed: not
the configuration, not the program, no byte of memory, neither state bit, no Z register. -/
def Obligations.RunAdvancesWordByWord : Prop :=
  ∀ (k : Nat) (s t : State), core.run k s = .next t →
    t.pc = s.pc + BitVec.ofNat 64 (4 * k) ∧ t.cfg = s.cfg ∧ t.programBase = s.programBase ∧
    t.programLength = s.programLength ∧ t.mem = s.mem ∧ t.pstateSM = s.pstateSM ∧
    t.pstateZA = s.pstateZA ∧
    ∀ r, (t.vec.readZ r).toNat = (s.vec.readZ r).toNat

/-- R121: a step completes exactly when the word at the pc is a form whose features are implemented
and access, streaming mode and ZA are enabled. -/
def Obligations.StepCompletesWhenReady : Prop :=
  ∀ s : State, (∃ t, step s = .next t) ↔
    ∃ w i, s.OnWord w ∧ decodeWord w = .ok i ∧ s.Ready (formSize i)

/-- The launch of a one-word program (the model's, assumption 18): the very next step runs it. -/
def Obligations.LaunchedWordRunsNext : Prop :=
  ∀ (s : State) (w : Word) (i : Instr), s.mem.wf → decodeWord w = .ok i →
    step (s.withFetchWord 32 w.toNat) = exec i (s.withFetchWord 32 w.toNat)

/-! ## What each form computes -/

/-- R80 (closed form R72), 32-bit, single and multiple vectors: where the feature test and the enable check pass, the form
completes with the tile the rule's formula gives, `pc + 4`, and every field but the vector registers
as before. The wrap modulo 2^32 rests on decision D15 (assumption 16). -/
def Obligations.SingleAndMultiple32Completes : Prop :=
  ∀ (s : State) (da : Fin 4) (n m : Fin 32), (Instr.usmop4aS12 da n m).wellFormed = true →
    s.Ready .e32 → ∃ v : VectorState s.cfg.vl,
      exec (.usmop4aS12 da n m) s = .next { s with vec := v, pc := s.pc + 4 } ∧
      ∀ R C, R < s.cfg.vl.bits / 32 → C < s.cfg.vl.bits / 32 →
        ((v.tileElem .e32 da R C).toNat : Int) =
          ((s.vec.tileElem .e32 da R C).toNat + ∑ k ∈ Finset.range 4,
            ((elem (s.vec.readZ n) (4 * R + k) 8).toNat : Int) *
              (elem (s.vec.readZ (if R < s.cfg.vl.bits / 64 then m else m + 1)) (4 * C + k) 8).toInt) % 2 ^ 32

/-- R81 (closed form R72), 32-bit, single vectors: where the feature test and the enable check pass, the form
completes with the tile the rule's formula gives, `pc + 4`, and every field but the vector registers
as before. The wrap modulo 2^32 rests on decision D15 (assumption 16). -/
def Obligations.Single32Completes : Prop :=
  ∀ (s : State) (da : Fin 4) (n m : Fin 32), (Instr.usmop4aS11 da n m).wellFormed = true →
    s.Ready .e32 → ∃ v : VectorState s.cfg.vl,
      exec (.usmop4aS11 da n m) s = .next { s with vec := v, pc := s.pc + 4 } ∧
      ∀ R C, R < s.cfg.vl.bits / 32 → C < s.cfg.vl.bits / 32 →
        ((v.tileElem .e32 da R C).toNat : Int) =
          ((s.vec.tileElem .e32 da R C).toNat + ∑ k ∈ Finset.range 4,
            ((elem (s.vec.readZ n) (4 * R + k) 8).toNat : Int) *
              (elem (s.vec.readZ m) (4 * C + k) 8).toInt) % 2 ^ 32

/-- R82 (closed form R72), 32-bit, multiple and single vectors: where the feature test and the enable check pass, the form
completes with the tile the rule's formula gives, `pc + 4`, and every field but the vector registers
as before. The wrap modulo 2^32 rests on decision D15 (assumption 16). -/
def Obligations.MultipleAndSingle32Completes : Prop :=
  ∀ (s : State) (da : Fin 4) (n m : Fin 32), (Instr.usmop4aS21 da n m).wellFormed = true →
    s.Ready .e32 → ∃ v : VectorState s.cfg.vl,
      exec (.usmop4aS21 da n m) s = .next { s with vec := v, pc := s.pc + 4 } ∧
      ∀ R C, R < s.cfg.vl.bits / 32 → C < s.cfg.vl.bits / 32 →
        ((v.tileElem .e32 da R C).toNat : Int) =
          ((s.vec.tileElem .e32 da R C).toNat + ∑ k ∈ Finset.range 4,
            ((elem (s.vec.readZ (if C < s.cfg.vl.bits / 64 then n else n + 1)) (4 * R + k) 8).toNat : Int) *
              (elem (s.vec.readZ m) (4 * C + k) 8).toInt) % 2 ^ 32

/-- R83 (closed form R72), 32-bit, multiple vectors: where the feature test and the enable check pass, the form
completes with the tile the rule's formula gives, `pc + 4`, and every field but the vector registers
as before. The wrap modulo 2^32 rests on decision D15 (assumption 16). -/
def Obligations.Multiple32Completes : Prop :=
  ∀ (s : State) (da : Fin 4) (n m : Fin 32), (Instr.usmop4aS22 da n m).wellFormed = true →
    s.Ready .e32 → ∃ v : VectorState s.cfg.vl,
      exec (.usmop4aS22 da n m) s = .next { s with vec := v, pc := s.pc + 4 } ∧
      ∀ R C, R < s.cfg.vl.bits / 32 → C < s.cfg.vl.bits / 32 →
        ((v.tileElem .e32 da R C).toNat : Int) =
          ((s.vec.tileElem .e32 da R C).toNat + ∑ k ∈ Finset.range 4,
            ((elem (s.vec.readZ (if C < s.cfg.vl.bits / 64 then n else n + 1)) (4 * R + k) 8).toNat : Int) *
              (elem (s.vec.readZ (if R < s.cfg.vl.bits / 64 then m else m + 1)) (4 * C + k) 8).toInt) % 2 ^ 32

/-- R84 (closed form R72), 64-bit, single and multiple vectors: where the feature test and the enable check pass, the form
completes with the tile the rule's formula gives, `pc + 4`, and every field but the vector registers
as before. The wrap modulo 2^64 rests on decision D15 (assumption 16). -/
def Obligations.SingleAndMultiple64Completes : Prop :=
  ∀ (s : State) (da : Fin 8) (n m : Fin 32), (Instr.usmop4aD12 da n m).wellFormed = true →
    s.Ready .e64 → ∃ v : VectorState s.cfg.vl,
      exec (.usmop4aD12 da n m) s = .next { s with vec := v, pc := s.pc + 4 } ∧
      ∀ R C, R < s.cfg.vl.bits / 64 → C < s.cfg.vl.bits / 64 →
        ((v.tileElem .e64 da R C).toNat : Int) =
          ((s.vec.tileElem .e64 da R C).toNat + ∑ k ∈ Finset.range 4,
            ((elem (s.vec.readZ n) (4 * R + k) 16).toNat : Int) *
              (elem (s.vec.readZ (if R < s.cfg.vl.bits / 128 then m else m + 1)) (4 * C + k) 16).toInt) % 2 ^ 64

/-- R85 (closed form R72), 64-bit, single vectors: where the feature test and the enable check pass, the form
completes with the tile the rule's formula gives, `pc + 4`, and every field but the vector registers
as before. The wrap modulo 2^64 rests on decision D15 (assumption 16). -/
def Obligations.Single64Completes : Prop :=
  ∀ (s : State) (da : Fin 8) (n m : Fin 32), (Instr.usmop4aD11 da n m).wellFormed = true →
    s.Ready .e64 → ∃ v : VectorState s.cfg.vl,
      exec (.usmop4aD11 da n m) s = .next { s with vec := v, pc := s.pc + 4 } ∧
      ∀ R C, R < s.cfg.vl.bits / 64 → C < s.cfg.vl.bits / 64 →
        ((v.tileElem .e64 da R C).toNat : Int) =
          ((s.vec.tileElem .e64 da R C).toNat + ∑ k ∈ Finset.range 4,
            ((elem (s.vec.readZ n) (4 * R + k) 16).toNat : Int) *
              (elem (s.vec.readZ m) (4 * C + k) 16).toInt) % 2 ^ 64

/-- R86 (closed form R72), 64-bit, multiple and single vectors: where the feature test and the enable check pass, the form
completes with the tile the rule's formula gives, `pc + 4`, and every field but the vector registers
as before. The wrap modulo 2^64 rests on decision D15 (assumption 16). -/
def Obligations.MultipleAndSingle64Completes : Prop :=
  ∀ (s : State) (da : Fin 8) (n m : Fin 32), (Instr.usmop4aD21 da n m).wellFormed = true →
    s.Ready .e64 → ∃ v : VectorState s.cfg.vl,
      exec (.usmop4aD21 da n m) s = .next { s with vec := v, pc := s.pc + 4 } ∧
      ∀ R C, R < s.cfg.vl.bits / 64 → C < s.cfg.vl.bits / 64 →
        ((v.tileElem .e64 da R C).toNat : Int) =
          ((s.vec.tileElem .e64 da R C).toNat + ∑ k ∈ Finset.range 4,
            ((elem (s.vec.readZ (if C < s.cfg.vl.bits / 128 then n else n + 1)) (4 * R + k) 16).toNat : Int) *
              (elem (s.vec.readZ m) (4 * C + k) 16).toInt) % 2 ^ 64

/-- R87 (closed form R72), 64-bit, multiple vectors: where the feature test and the enable check pass, the form
completes with the tile the rule's formula gives, `pc + 4`, and every field but the vector registers
as before. The wrap modulo 2^64 rests on decision D15 (assumption 16). -/
def Obligations.Multiple64Completes : Prop :=
  ∀ (s : State) (da : Fin 8) (n m : Fin 32), (Instr.usmop4aD22 da n m).wellFormed = true →
    s.Ready .e64 → ∃ v : VectorState s.cfg.vl,
      exec (.usmop4aD22 da n m) s = .next { s with vec := v, pc := s.pc + 4 } ∧
      ∀ R C, R < s.cfg.vl.bits / 64 → C < s.cfg.vl.bits / 64 →
        ((v.tileElem .e64 da R C).toNat : Int) =
          ((s.vec.tileElem .e64 da R C).toNat + ∑ k ∈ Finset.range 4,
            ((elem (s.vec.readZ (if C < s.cfg.vl.bits / 128 then n else n + 1)) (4 * R + k) 16).toNat : Int) *
              (elem (s.vec.readZ (if R < s.cfg.vl.bits / 128 then m else m + 1)) (4 * C + k) 16).toInt) % 2 ^ 64

/-- R71: the page's operation text, loop by loop, from any initial value of its variable `result`, gives
what the meanings give, for all eight forms (R75: the order of the loops does not matter). The
reading of the text is that of 00_scope.md R12 (decisions D15, D16; assumptions 16, 22). -/
def Obligations.PageOperationAgrees : Prop :=
  ∀ (s : State) (i : Instr), i.wellFormed = true → s.Ready (formSize i) →
    ∀ result, exec i s =
      .next { s with vec := s.vec.pageOperation (pageVars i) result, pc := s.pc + 4 }

/-- R74 (f): the sum of the four products always fits in the element, so a wrap can come only from
accumulation onto the old value. -/
def Obligations.DotProductRange : Prop :=
  ∀ (vl : VecLen) (a b : BitVec vl.bits) (R C : Nat),
    (-130560 ≤ containerDot 8 a b R C ∧ containerDot 8 a b R C ≤ 129540) ∧
    (-8589803520 ≤ containerDot 16 a b R C ∧ containerDot 16 a b R C ≤ 8589541380)

/-- 92_eei_decisions.md D15: an element whose exact signed sum stays within the element is that sum,
whatever one decides about overflow. The crossing of registers and halves is R73. -/
def Obligations.SignedSumWithoutOverflow : Prop :=
  ∀ (s : State) (i : Instr), i.wellFormed = true → s.Ready (formSize i) →
    ∃ v : VectorState s.cfg.vl, exec i s = .next { s with vec := v, pc := s.pc + 4 } ∧
      ∀ R C, R < side s.cfg.vl (formSize i) → C < side s.cfg.vl (formSize i) →
        let a := s.vec.readZ (registerFor (firstSource i) (C / dim s.cfg.vl (formSize i)))
        let b := s.vec.readZ (registerFor (secondSource i) (R / dim s.cfg.vl (formSize i)))
        let sum := (s.vec.tileElem (formSize i) (formTile i) R C).toInt +
          containerDot ((formSize i).bits / 4) a b R C
        sum < 2 ^ ((formSize i).bits - 1) → -(2 ^ ((formSize i).bits - 1)) ≤ sum →
          (v.tileElem (formSize i) (formTile i) R C).toInt = sum

/-- R79 (a): with every register of one source zero the instruction changes nothing but the pc. -/
def Obligations.ZeroSourceChangesNothing : Prop :=
  ∀ (s : State) (i : Instr), i.wellFormed = true → s.Ready (formSize i) →
    ((∀ r ∈ firstSource i, s.vec.readZ (Fin.ofNat 32 r) = 0) ∨
      (∀ r ∈ secondSource i, s.vec.readZ (Fin.ofNat 32 r) = 0)) →
    exec i s = .next { s with pc := s.pc + 4 }

/-- R79 (f): with equal values in the two registers of each pair, the four forms of an element size
give the same next state. -/
def Obligations.EqualPairsActAsSingle : Prop :=
  ∀ (s : State) (n m : Fin 32), firstRegisterOk n = true → secondRegisterOk m = true →
    s.vec.readZ (n + 1) = s.vec.readZ n → s.vec.readZ (m + 1) = s.vec.readZ m →
    (s.Ready .e32 → ∀ da : Fin 4, ∃ t, exec (.usmop4aS12 da n m) s = .next t ∧
      exec (.usmop4aS11 da n m) s = .next t ∧ exec (.usmop4aS21 da n m) s = .next t ∧
      exec (.usmop4aS22 da n m) s = .next t) ∧
    (s.Ready .e64 → ∀ da : Fin 8, ∃ t, exec (.usmop4aD12 da n m) s = .next t ∧
      exec (.usmop4aD11 da n m) s = .next t ∧ exec (.usmop4aD21 da n m) s = .next t ∧
      exec (.usmop4aD22 da n m) s = .next t)

/-- R79 (g), 95_test_vectors.md TV-F: the same word run twice adds the same amount twice, modulo
2^esize: the second execution sees the tile the first one wrote. Two clauses are the model's choices:
the wrap modulo 2^esize is decision D15 (assumption 16), and the second execution seeing the first's
tile, with nothing between them, is decision D9 (assumption 17). -/
def Obligations.RunTwiceAddsTwice : Prop :=
  ∀ (s : State) (i : Instr), i.wellFormed = true → s.Ready (formSize i) →
    ∃ t u, exec i s = .next t ∧ exec i t = .next u ∧
      ∀ R C, R < side s.cfg.vl (formSize i) → C < side s.cfg.vl (formSize i) →
        u.vec.tileElem (formSize i) (formTile i) R C - t.vec.tileElem (formSize i) (formTile i) R C =
          t.vec.tileElem (formSize i) (formTile i) R C - s.vec.tileElem (formSize i) (formTile i) R C

/-- 95_test_vectors.md TV-F: the new tile depends on no Z register but the one to four selected, and on
no element of ZA but the destination tile's. -/
def Obligations.ResultDependsOnlyOnOperands : Prop :=
  ∀ (s : State) (i : Instr) (v : VectorState s.cfg.vl), i.wellFormed = true →
    s.Ready (formSize i) →
    (∀ r ∈ firstSource i ++ secondSource i,
      v.readZ (Fin.ofNat 32 r) = s.vec.readZ (Fin.ofNat 32 r)) →
    (∀ R C, R < side s.cfg.vl (formSize i) → C < side s.cfg.vl (formSize i) →
      v.tileElem (formSize i) (formTile i) R C = s.vec.tileElem (formSize i) (formTile i) R C) →
    ∃ t u, exec i s = .next t ∧ exec i { s with vec := v } = .next u ∧
      ∀ R C, R < side s.cfg.vl (formSize i) → C < side s.cfg.vl (formSize i) →
        u.vec.tileElem (formSize i) (formTile i) R C = t.vec.tileElem (formSize i) (formTile i) R C

/-! ## What stays unchanged, and how tiles share storage -/

/-- R23, R27, R33, R77: the frame of all eight forms. A completed execution leaves everything as it
was but the destination tile and the pc: configuration, program, every byte of memory, both state
bits, every Z register, every vector of the ZA array that is no row of the tile, every other tile of
the same element size. No form stores to memory, and no register is updated but these. Which vectors
of the ZA array are rows of a tile, and that other tiles of the size share none of them, is the
storage mapping of decision D4 (assumption 6): those two clauses are the model's choice. -/
def Obligations.CompletedFrame : Prop :=
  ∀ (i : Instr) (s t : State), exec i s = .next t →
    t.cfg = s.cfg ∧ t.programBase = s.programBase ∧ t.programLength = s.programLength ∧
    (∀ a, t.mem.read a = s.mem.read a) ∧ t.pstateSM = s.pstateSM ∧ t.pstateZA = s.pstateZA ∧
    (∀ r, (t.vec.readZ r).toNat = (s.vec.readZ r).toNat) ∧
    (∀ k, k % ((formSize i).bits / 8) ≠ formTile i →
      (t.vec.readZa k).toNat = (s.vec.readZa k).toNat) ∧
    (∀ u < (formSize i).bits / 8, u ≠ formTile i → ∀ R C,
      t.vec.tileElem (formSize i) u R C = s.vec.tileElem (formSize i) u R C)

/-- R29, R32, R48 and decision D1: no step changes the configuration, the program, memory, PSTATE.SM,
PSTATE.ZA or a Z register, and every completed step moves the pc to the next word. -/
def Obligations.StepChangesOnlyZaAndPc : Prop :=
  ∀ s t : State, step s = .next t →
    ∃ v : VectorState s.cfg.vl, v.z = s.vec.z ∧ t = { s with vec := v, pc := s.pc + 4 }

/-- R24: the page's view of a tile as one vector is row-major: element `R*2*dim + C` is the element at
row `R`, column `C`. -/
def Obligations.TileIsRowMajor : Prop :=
  ∀ (vl : VecLen) (v : VectorState vl) (es : ESize) (t R C : Nat),
    R < 2 * dim vl es → C < 2 * dim vl es →
    elem (v.zaTile es t) (R * 2 * dim vl es + C) es.bits = v.tileElem es t R C

/-- R26 (decision D4, assumption 6): a 32-bit tile `t` and the 64-bit tiles `t` and `t+4` are the same
storage: row `R` of the one is row `R/2` of `t` when `R` is even and of `t+4` when it is odd, and a
64-bit element is a pair of 32-bit elements, the even column low. -/
def Obligations.TilesShareStorage : Prop :=
  ∀ (vl : VecLen) (v : VectorState vl) (t R C : Nat), t < 4 → R < side vl .e32 → C < side vl .e64 →
    (v.tileElem .e64 (t + 4 * (R % 2)) (R / 2) C).toNat =
      (v.tileElem .e32 t R (2 * C + 1)).toNat * 2 ^ 32 + (v.tileElem .e32 t R (2 * C)).toNat

/-- R26, R27, R46 (decision D4, assumption 6): two instructions whose destination tiles share no storage
give the same state in either order. -/
def Obligations.DisjointTilesCommute : Prop :=
  ∀ (s : State) (i j : Instr), i.wellFormed = true → j.wellFormed = true →
    s.Ready (formSize i) → s.Ready (formSize j) →
    (formSize i = formSize j ∧ formTile i ≠ formTile j ∨ formTile i % 4 ≠ formTile j % 4) →
    ∃ t u r, exec i s = .next t ∧ exec j t = .next r ∧ exec j s = .next u ∧ exec i u = .next r

/-! ## Outcomes and faults -/

/-- R57, R100, R102, R103: exactly three outcomes, their causes, a missing feature before the enable
check, and no dependence on the values of the operands. The access control among the enables is
decision D11 (assumptions 3, 14): the clauses on the enable check and on completion rest on that
choice. -/
def Obligations.ThreeOutcomes : Prop :=
  ∀ (i : Instr) (s : State),
    ((∃ t, exec i s = .next t) ∨ (∃ pc w, exec i s = .fault (.undefined pc w)) ∨
      ∃ reason pc w, exec i s = .fault (.smeAccess reason pc w)) ∧
    ((∃ pc w, exec i s = .fault (.undefined pc w)) ↔ ¬ HasFeatures s.cfg (formSize i)) ∧
    ((∃ reason pc w, exec i s = .fault (.smeAccess reason pc w)) ↔
      HasFeatures s.cfg (formSize i) ∧ ¬ s.Enabled) ∧
    ((∃ t, exec i s = .next t) ↔ s.Ready (formSize i)) ∧
    ∀ (v : VectorState s.cfg.vl) (f : Fault),
      exec i s = .fault f ↔ exec i { s with vec := v } = .fault f

/-- R57: which words are UNDEFINED on an implementation that lacks a feature, whatever the fields, the
operands and the enables (R103). -/
def Obligations.MissingFeatureUndefined : Prop :=
  ∀ s w, s.OnWord w →
    ((∃ r ∈ matchAndMask.take 4, w &&& r.2 = r.1) →
      ((∃ pc word, step s = .fault (.undefined pc word)) ↔ s.cfg.haveMOP4 = false)) ∧
    ((∃ r ∈ matchAndMask.drop 4, w &&& r.2 = r.1) →
      ((∃ pc word, step s = .fault (.undefined pc word)) ↔
        s.cfg.haveMOP4 = false ∨ s.cfg.haveI16I64 = false))

/-- R102 (decision D11, assumption 14): the three tests of the enable check, in order, each with its
reason; the fault records the pc and the word. -/
def Obligations.EnableCheckOrder : Prop :=
  ∀ (i : Instr) (s : State), HasFeatures s.cfg (formSize i) →
    (s.cfg.smeAccessEnabled = false →
      exec i s = .fault (.smeAccess .accessDisabled s.pc (encode i))) ∧
    (s.cfg.smeAccessEnabled = true → s.pstateSM = false →
      exec i s = .fault (.smeAccess .notStreaming s.pc (encode i))) ∧
    (s.cfg.smeAccessEnabled = true → s.pstateSM = true → s.pstateZA = false →
      exec i s = .fault (.smeAccess .zaDisabled s.pc (encode i)))

/-- R104, R107 (decision D13, assumption 15): a fault of a step records the pc and the very word that
was fetched there, and that word is one of the forms. -/
def Obligations.FaultRecordsPcAndWord : Prop :=
  ∀ (s : State) (f : Fault), step s = .fault f →
    ∃ w i, s.OnWord w ∧ decodeWord w = .ok i ∧
      (f = .undefined s.pc w ∨ ∃ reason, f = .smeAccess reason s.pc w)
end

