-- ==== Sys2Proof/Laws/Decode.lean ====
section
/-! SUPPORT. Words and their bytes; what a row hits; decoding four bytes. -/

namespace Sys2Proof

/-- A word is what its four bytes make (20_memory.md R42). -/
theorem wordOfBytes_bytes (w : Word) :
    wordOfBytes (w.extractLsb' 0 8) (w.extractLsb' 8 8) (w.extractLsb' 16 8) (w.extractLsb' 24 8) =
      w := by
  apply BitVec.eq_of_getLsbD_eq
  intro j hj
  simp only [wordOfBytes, BitVec.getLsbD_append, BitVec.getLsbD_extractLsb']
  interval_cases j <;> simp

/-- The bytes of a word are the bytes it was made of (20_memory.md R42). -/
theorem bytes_wordOfBytes (b0 b1 b2 b3 : Byte) :
    (wordOfBytes b0 b1 b2 b3).extractLsb' 0 8 = b0 ∧
    (wordOfBytes b0 b1 b2 b3).extractLsb' 8 8 = b1 ∧
    (wordOfBytes b0 b1 b2 b3).extractLsb' 16 8 = b2 ∧
    (wordOfBytes b0 b1 b2 b3).extractLsb' 24 8 = b3 := by
  refine ⟨?_, ?_, ?_, ?_⟩ <;>
  · apply BitVec.eq_of_getLsbD_eq
    intro j hj
    simp only [wordOfBytes, BitVec.getLsbD_append, BitVec.getLsbD_extractLsb']
    interval_cases j <;> simp

/-- A row hits a word when `W AND mask = match` (30_encoding.md R58). -/
theorem hits_eq_true (r : OpcodeRow) (w : Word) : r.hits w = true ↔ w &&& r.mask = r.matchBits :=
  beq_iff_eq

/-- Decoding the bytes of a word is decoding the word. -/
theorem decodeBytes_bytesOfWord (w : Word) (rest : List Byte) :
    decodeBytes (bytesOfWord w ++ rest) =
      match decodeWord w with
      | .ok i => .ok (i, rest)
      | .error e => .error e := by
  cases h : decodeWord w <;> simp [bytesOfWord, decodeBytes, wordOfBytes_bytes, h]

end Sys2Proof
end

