-- ==== Sys2Proof/Laws/Memory.lean ====
section
/-! SUPPORT. Every memory operation keeps the canonical form, and a read after a write. -/

namespace Sys2Proof.Machine

open Sys2Proof

theorem lookup_insert (mem : Memory) (x y : Nat) (v : Byte) (h : mem.Pairwise (fun c d => c.1 < d.1)) :
    (mem.insert x v).lookup y = if x = y then some v else mem.lookup y := by
  induction mem with
  | nil => simp [Memory.insert, Memory.lookup]
  | cons c rest ih =>
    obtain ⟨a, b⟩ := c
    obtain ⟨_, hrest⟩ := List.pairwise_cons.mp h
    simp only [Memory.insert]
    split
    · simp [Memory.lookup]
    · split
      · subst x
        simp only [Memory.lookup]
        split <;> rfl
      · simp only [Memory.lookup, ih hrest]
        split
        · rw [if_neg (by omega)]
        · rfl

theorem mem_insert (mem : Memory) (x : Nat) (v : Byte) (c : Host.Cell) (h : c ∈ mem.insert x v) :
    c = (x, v) ∨ c ∈ mem := by
  induction mem with
  | nil => simpa [Memory.insert] using h
  | cons d rest ih =>
    obtain ⟨a, b⟩ := d
    simp only [Memory.insert] at h
    split at h
    · simpa using h
    · split at h
      · subst x
        rcases List.mem_cons.mp h with rfl | h
        · exact .inl rfl
        · exact .inr (List.mem_cons_of_mem _ h)
      · rcases List.mem_cons.mp h with rfl | h
        · exact .inr List.mem_cons_self
        · exact (ih h).imp_right (List.mem_cons_of_mem _)

theorem insert_rising (mem : Memory) (x : Nat) (v : Byte)
    (h : mem.Pairwise (fun c d => c.1 < d.1)) :
    (mem.insert x v).Pairwise (fun c d => c.1 < d.1) := by
  induction mem with
  | nil => simp [Memory.insert]
  | cons d rest ih =>
    obtain ⟨a, b⟩ := d
    obtain ⟨hhead, hrest⟩ := List.pairwise_cons.mp h
    simp only [Memory.insert]
    split
    · refine List.pairwise_cons.mpr ⟨fun c hc => ?_, h⟩
      rcases List.mem_cons.mp hc with rfl | hc
      · assumption
      · have := hhead c hc; simp only at *; omega
    · split
      · exact List.pairwise_cons.mpr ⟨hhead, hrest⟩
      · refine List.pairwise_cons.mpr ⟨fun c hc => ?_, ih hrest⟩
        rcases mem_insert rest x v c hc with rfl | hc
        · simp only; omega
        · exact hhead c hc

/-- Storing a byte keeps the canonical form. -/
theorem write_wf (mem : Memory) (a : Addr) (b : Byte) (h : mem.wf) : (mem.write a b).wf := by
  refine ⟨insert_rising mem _ _ h.1, fun c hc => ?_⟩
  rcases mem_insert mem _ _ c hc with rfl | hc
  · exact a.isLt
  · exact h.2 c hc

/-- Storing bytes keeps the canonical form. -/
theorem writeBytes_wf (bs : List Byte) (mem : Memory) (a : Addr) (h : mem.wf) :
    (mem.writeBytes a bs).wf := by
  induction bs generalizing mem a with
  | nil => exact h
  | cons b bs ih => exact ih _ _ (write_wf mem a b h)

theorem reset_mem_wf : State.reset.mem.wf := by decide

/-- What any address reads as after a byte is stored. -/
theorem read_write (mem : Memory) (a x : Addr) (b : Byte) (h : mem.wf) :
    (mem.write a b).read x = if a = x then some b else mem.read x := by
  simp only [Memory.read, Memory.write, lookup_insert mem _ _ _ h.1, BitVec.toNat_inj]

/-- Four bytes read together are the bytes at four consecutive addresses. -/
theorem readBytes_four (mem : Memory) (a : Addr) (bs : List Byte) :
    mem.readBytes a 4 = some bs ↔ ∃ b0 b1 b2 b3, bs = [b0, b1, b2, b3] ∧
      mem.read a = some b0 ∧ mem.read (a + 1) = some b1 ∧
      mem.read (a + 2) = some b2 ∧ mem.read (a + 3) = some b3 := by
  have h2 : a + 1 + 1 = a + 2 := by bv_omega
  have h3 : a + 2 + 1 = a + 3 := by bv_omega
  simp only [Memory.readBytes, h2, h3]
  cases mem.read a <;> cases mem.read (a + 1) <;> cases mem.read (a + 2) <;>
    cases mem.read (a + 3) <;> simp [eq_comm]

end Sys2Proof.Machine
end

