-- ==== Sys2Proof/Laws/Fetch.lean ====
section
/-! SUPPORT. The program's addresses as numbers, when fetch answers bytes, and when step answers a next
state. -/

namespace Sys2Proof.Machine

open Sys2Proof

variable (s : State)

theorem programOk_iff : s.programOk = true ↔
    s.programBase.toNat % 4 = 0 ∧ s.programBase.toNat + 4 * s.programLength < 2 ^ 64 := by
  simp only [State.programOk, Bool.and_eq_true, decide_eq_true_eq, beq_iff_eq]
  rfl

theorem atWord_iff : s.atWord = true ↔ s.programBase.toNat ≤ s.pc.toNat ∧
    s.pc.toNat < s.programBase.toNat + 4 * s.programLength ∧ s.pc.toNat % 4 = 0 := by
  simp only [State.atWord, Bool.and_eq_true, decide_eq_true_eq, beq_iff_eq, and_assoc]
  rfl

theorem atEnd_iff : s.atEnd = true ↔
    s.pc.toNat = s.programBase.toNat + 4 * s.programLength := by
  simp only [State.atEnd, State.endAddress, beq_iff_eq]

/-- The pc of a program's word is not its end address. -/
theorem atEnd_of_atWord (h : s.atWord = true) : s.atEnd = false := by
  rw [atWord_iff] at h
  rw [← Bool.not_eq_true, atEnd_iff]
  omega

/-- Fetch answers bytes exactly on a word of an allowed program whose bytes memory holds. -/
theorem fetch_eq_ok (bs : List Byte) : s.fetch = .ok bs ↔
    s.programOk = true ∧ s.atWord = true ∧ s.mem.readBytes s.pc 4 = some bs := by
  have hend := atEnd_of_atWord s
  unfold State.fetch
  cases s.programOk <;> cases h : s.atWord <;> cases h' : s.atEnd <;>
    cases s.mem.readBytes s.pc 4 <;> simp_all [Except.ok.injEq]

/-- Fetch answers the bytes of the word the pc is on, and only those. -/
theorem fetch_iff_onWord (bs : List Byte) :
    s.fetch = .ok bs ↔ ∃ w, s.OnWord w ∧ bs = bytesOfWord w := by
  rw [fetch_eq_ok, readBytes_four]
  constructor
  · rintro ⟨hp, hw, b0, b1, b2, b3, rfl, h0, h1, h2, h3⟩
    obtain ⟨e0, e1, e2, e3⟩ := bytes_wordOfBytes b0 b1 b2 b3
    refine ⟨wordOfBytes b0 b1 b2 b3, ⟨hp, hw, ?_, ?_, ?_, ?_⟩, ?_⟩
    · rw [e0, h0]
    · rw [e1, h1]
    · rw [e2, h2]
    · rw [e3, h3]
    · rw [bytesOfWord, e0, e1, e2, e3]
  · rintro ⟨w, ⟨hp, hw, h⟩, rfl⟩
    exact ⟨hp, hw, _, _, _, _, rfl, h⟩

/-- A step answers a next state only by executing the instruction that fetch and decode give. -/
theorem step_eq_next (t : State) : step s = .next t ↔
    ∃ bs i rest, s.fetch = .ok bs ∧ decodeBytes bs = .ok (i, rest) ∧ exec i s = .next t := by
  unfold step
  split
  · simp_all
  · rename_i bs hbs
    simp only [hbs, Except.ok.injEq]
    split <;> simp_all

end Sys2Proof.Machine
end

