-- ==== Sys2Proof/Laws/Operands.lean ====
section
/-! SUPPORT. Elements and packed vectors, and the shape of a tile. -/

namespace Sys2Proof.Machine

open Sys2Proof

/-- A vector of an array given by a function. -/
theorem vectorAt_ofFn {l k : Nat} (f : Fin k → BitVec l) (i : Nat) :
    vectorAt (Vector.ofFn f) i = if h : i < k then f ⟨i, h⟩ else 0 := by
  simp only [vectorAt]
  split
  · simp [*]
  · rename_i h
    rw [Vector.getElem?_eq_none (Nat.not_lt.mp h)]
    rfl

/-- A vector of an array at an index the array has. -/
theorem vectorAt_of_lt {l k : Nat} (array : Vector (BitVec l) k) (i : Nat) (h : i < k) :
    vectorAt array i = array[i] := by
  simp [vectorAt, h]

/-- A bit of an element is a bit of the vector. -/
theorem getLsbD_elem {l : Nat} (v : BitVec l) (i w j : Nat) :
    (elem v i w).getLsbD j = (decide (j < w) && v.getLsbD (i * w + j)) := by
  simp [elem]

/-- A bit of a packed vector is a bit of one of its elements. -/
theorem getLsbD_packElems (w out : Nat) (f : Nat → BitVec w) (count j : Nat) (hj : j < out) :
    (packElems w out f count).getLsbD j =
      (decide (j < count * w) && (f (j / w)).getLsbD (j % w)) := by
  induction count with
  | zero => simp [packElems]
  | succ k ih =>
    simp only [packElems, BitVec.getLsbD_or, ih, BitVec.getLsbD_shiftLeft, BitVec.getLsbD_setWidth]
    rcases Nat.lt_or_ge j (k * w) with h | h
    · have : j < (k + 1) * w := by rw [Nat.succ_mul]; omega
      simp [h, this]
    · rcases Nat.lt_or_ge j ((k + 1) * w) with h' | h'
      · have hdiv : j / w = k := Nat.div_eq_of_lt_le h h'
        have hmod : j % w = j - k * w := by
          have := Nat.div_add_mod j w
          rw [hdiv, Nat.mul_comm] at this
          omega
        have hlt : ¬ j < k * w := by omega
        have hout : j - k * w < out := by omega
        simp [hj, hdiv, hmod, hlt, h', hout]
      · have hw : w ≤ j - k * w := by rw [Nat.succ_mul] at h'; omega
        have hlt : ¬ j < k * w := by omega
        have hlt' : ¬ j < (k + 1) * w := by omega
        simp [hlt, hlt', BitVec.getLsbD_of_ge _ _ hw]

/-- An element of a packed vector that fits in it is the element that was packed. -/
theorem elem_packElems (w out : Nat) (f : Nat → BitVec w) (count i : Nat) (hi : i < count)
    (hfit : count * w ≤ out) : elem (packElems w out f count) i w = f i := by
  apply BitVec.eq_of_getLsbD_eq
  intro j hj
  have h1 : i * w + j < count * w := by
    have := Nat.mul_le_mul_right w (Nat.succ_le_of_lt hi)
    rw [Nat.succ_mul] at this
    omega
  have hdiv : (i * w + j) / w = i := by
    rw [Nat.mul_comm, Nat.mul_add_div (by omega), Nat.div_eq_of_lt hj, Nat.add_zero]
  have hmod : (i * w + j) % w = j := by
    rw [Nat.mul_comm, Nat.mul_add_mod, Nat.mod_eq_of_lt hj]
  rw [getLsbD_elem, getLsbD_packElems _ _ _ _ _ (by omega)]
  simp [hj, h1, hdiv, hmod]

/-- Vectors that agree on all the elements that fill them are equal. -/
theorem eq_of_elem_eq {l : Nat} (w count : Nat) (hw : 0 < w) (hfill : count * w = l)
    (u v : BitVec l) (h : ∀ i < count, elem u i w = elem v i w) : u = v := by
  apply BitVec.eq_of_getLsbD_eq
  intro j hj
  have hi : j / w < count := by rw [Nat.div_lt_iff_lt_mul hw]; omega
  have := congrArg (fun x => x.getLsbD (j % w)) (h _ hi)
  simpa only [getLsbD_elem, Nat.mod_lt j hw, decide_true, Bool.true_and, Nat.div_add_mod'] using this

/-- One row of a tile fills a vector of `VL` bits (10_state.md R24). -/
theorem side_mul_bits (vl : VecLen) (es : ESize) : side vl es * es.bits = vl.bits := by
  cases vl <;> cases es <;> rfl

/-- The rows of all the tiles of one element size are the whole ZA array (10_state.md R26). -/
theorem side_mul_tileStride (vl : VecLen) (es : ESize) :
    side vl es * tileStride es = vl.zaVectors := by
  cases vl <;> cases es <;> rfl

theorem tileStride_pos (es : ESize) : 0 < tileStride es := by cases es <;> decide

theorem dim_pos (vl : VecLen) (es : ESize) : 0 < dim vl es := by cases vl <;> cases es <;> decide

end Sys2Proof.Machine
end

