-- ==== Sys2Proof/Laws/PerInstr.lean ====
section
/-! SUPPORT. A family of lemmas with one lemma per constructor of Instr: the encoder puts every
instruction's word in its own row of the opcode map. -/

namespace Sys2Proof.Laws.EncodesInRow

open Sys2Proof

/-- The row of the opcode map (30_encoding.md R58), counted from 0, that stands for a constructor. -/
def rowOf : Instr → Nat
  | .usmop4aS12 .. => 0
  | .usmop4aS11 .. => 1
  | .usmop4aS21 .. => 2
  | .usmop4aS22 .. => 3
  | .usmop4aD12 .. => 4
  | .usmop4aD11 .. => 5
  | .usmop4aD21 .. => 6
  | .usmop4aD22 .. => 7

/-- A well-formed instruction's word hits the row of its constructor. -/
def Statement (i : Instr) : Prop :=
  i.wellFormed = true → ∃ r, opcodeTable[rowOf i]? = some r ∧ r.hits (encode i) = true

theorem hits_of_registers (matchBits mask : Word) (da : Nat) (n m : Fin 32)
    (h : ∀ zn < 8, ∀ zm < 8,
      (matchBits ||| BitVec.ofNat 32 da ||| BitVec.ofNat 32 zn <<< 6 ||| BitVec.ofNat 32 zm <<< 17)
        &&& mask = matchBits)
    (hwf : (firstRegisterOk n && secondRegisterOk m) = true) :
    encodeFields matchBits da n m &&& mask = matchBits := by
  simp only [firstRegisterOk, secondRegisterOk, Bool.and_eq_true, decide_eq_true_eq, beq_iff_eq] at hwf
  exact h _ (by omega) _ (by omega)

theorem usmop4aS12 (da : Fin 4) (n m : Fin 32) : Statement (.usmop4aS12 da n m) := fun h =>
  ⟨_, rfl, beq_iff_eq.mpr (hits_of_registers _ _ _ _ _ (by clear h; revert da; decide) h)⟩

theorem usmop4aS11 (da : Fin 4) (n m : Fin 32) : Statement (.usmop4aS11 da n m) := fun h =>
  ⟨_, rfl, beq_iff_eq.mpr (hits_of_registers _ _ _ _ _ (by clear h; revert da; decide) h)⟩

theorem usmop4aS21 (da : Fin 4) (n m : Fin 32) : Statement (.usmop4aS21 da n m) := fun h =>
  ⟨_, rfl, beq_iff_eq.mpr (hits_of_registers _ _ _ _ _ (by clear h; revert da; decide) h)⟩

theorem usmop4aS22 (da : Fin 4) (n m : Fin 32) : Statement (.usmop4aS22 da n m) := fun h =>
  ⟨_, rfl, beq_iff_eq.mpr (hits_of_registers _ _ _ _ _ (by clear h; revert da; decide) h)⟩

theorem usmop4aD12 (da : Fin 8) (n m : Fin 32) : Statement (.usmop4aD12 da n m) := fun h =>
  ⟨_, rfl, beq_iff_eq.mpr (hits_of_registers _ _ _ _ _ (by clear h; revert da; decide) h)⟩

theorem usmop4aD11 (da : Fin 8) (n m : Fin 32) : Statement (.usmop4aD11 da n m) := fun h =>
  ⟨_, rfl, beq_iff_eq.mpr (hits_of_registers _ _ _ _ _ (by clear h; revert da; decide) h)⟩

theorem usmop4aD21 (da : Fin 8) (n m : Fin 32) : Statement (.usmop4aD21 da n m) := fun h =>
  ⟨_, rfl, beq_iff_eq.mpr (hits_of_registers _ _ _ _ _ (by clear h; revert da; decide) h)⟩

theorem usmop4aD22 (da : Fin 8) (n m : Fin 32) : Statement (.usmop4aD22 da n m) := fun h =>
  ⟨_, rfl, beq_iff_eq.mpr (hits_of_registers _ _ _ _ _ (by clear h; revert da; decide) h)⟩

end Sys2Proof.Laws.EncodesInRow
end

