-- ==== Sys2Proof/Laws/Run.lean ====
section
/-! SUPPORT. A run of `k + 1` steps is one step and a run of `k`. -/

namespace Sys2Proof.Machine

open Sys2Proof

theorem run_zero_eq_next (s t : State) : core.run 0 s = .next t ↔ s = t :=
  ⟨Host.Outcome.next.inj, congrArg _⟩

theorem coreRun_succ_eq_next (M : Host.Core) (k : Nat) (s t : M.State) :
    M.run (k + 1) s = .next t ↔ ∃ u, M.step s = .next u ∧ M.run k u = .next t := by
  rw [Host.Core.run]
  cases M.step s <;> simp

/-- A run that answers a next state does so step by step. -/
theorem run_succ_eq_next (k : Nat) (s t : State) :
    core.run (k + 1) s = .next t ↔ ∃ u, step s = .next u ∧ core.run k u = .next t :=
  coreRun_succ_eq_next core k s t

end Sys2Proof.Machine
end

