-- ==== Sys2Proof/Laws/State.lean ====
section
/-! SUPPORT. One lemma per field per update of State and of its vector registers. -/

namespace Sys2Proof.Machine

open Sys2Proof

section Complete
variable (s : State) (v : VectorState s.cfg.vl)

@[simp] theorem complete_cfg : (s.complete v).cfg = s.cfg := rfl
@[simp] theorem complete_programBase : (s.complete v).programBase = s.programBase := rfl
@[simp] theorem complete_programLength : (s.complete v).programLength = s.programLength := rfl
@[simp] theorem complete_mem : (s.complete v).mem = s.mem := rfl
@[simp] theorem complete_vec : (s.complete v).vec = v := rfl
@[simp] theorem complete_pstateSM : (s.complete v).pstateSM = s.pstateSM := rfl
@[simp] theorem complete_pstateZA : (s.complete v).pstateZA = s.pstateZA := rfl
@[simp] theorem complete_pc : (s.complete v).pc = s.pc + 4 := rfl

end Complete

section Vectors
variable {vl : VecLen} (v : VectorState vl) (es : ESize) (nreg mreg t : Nat) (n m : Fin 32)

@[simp] theorem writeTile_z (f : Nat → Nat → BitVec es.bits) : (v.writeTile es t f).z = v.z := rfl
@[simp] theorem accumulate_z : (v.accumulate es nreg mreg t n m).z = v.z := rfl
@[simp] theorem setZaTile_z (tile : BitVec (tileSize vl es)) : (v.setZaTile es t tile).z = v.z := rfl

end Vectors

section Launch
variable (s : State) (base : Addr) (words : List Word)

@[simp] theorem launch_cfg : (s.launch base words).cfg = s.cfg := rfl
@[simp] theorem launch_programBase : (s.launch base words).programBase = base := rfl
@[simp] theorem launch_programLength : (s.launch base words).programLength = words.length := rfl
@[simp] theorem launch_mem :
    (s.launch base words).mem = s.mem.writeBytes base (words.flatMap bytesOfWord) := rfl
@[simp] theorem launch_vec : (s.launch base words).vec = s.vec := rfl
@[simp] theorem launch_pstateSM : (s.launch base words).pstateSM = true := rfl
@[simp] theorem launch_pstateZA : (s.launch base words).pstateZA = true := rfl
@[simp] theorem launch_pc : (s.launch base words).pc = base := rfl

end Launch

end Sys2Proof.Machine
end

