-- ==== Sys2Proof/Laws/Tile.lean ====
section
/-! SUPPORT. What writing a tile does to every vector and every element of the ZA array. -/

namespace Sys2Proof.Machine

open Sys2Proof

variable {vl : VecLen} (v : VectorState vl) (es : ESize) (t : Nat)
  (f : Nat → Nat → BitVec es.bits)

/-- Every vector of the ZA array after a tile is written. -/
theorem readZa_writeTile (i : Nat) (hi : i < vl.zaVectors) :
    (v.writeTile es t f).readZa i =
      if i % tileStride es = t then
        packElems es.bits vl.bits (f (i / tileStride es)) (side vl es)
      else v.readZa i := by
  rw [VectorState.readZa, VectorState.writeTile, vectorAt_ofFn, dif_pos hi, VectorState.readZa,
    vectorAt_of_lt _ _ hi]
  rfl

/-- The row of a tile is a vector of the ZA array. -/
theorem row_lt (vl : VecLen) (R : Nat) (ht : t < tileStride es) (hR : R < side vl es) :
    t + R * tileStride es < vl.zaVectors := by
  have := Nat.mul_le_mul_right (tileStride es) (Nat.succ_le_of_lt hR)
  rw [Nat.succ_mul, side_mul_tileStride] at this
  omega

/-- The tile that was written reads back as what was written. -/
theorem tileElem_writeTile_same (R C : Nat) (ht : t < tileStride es) (hR : R < side vl es)
    (hC : C < side vl es) : (v.writeTile es t f).tileElem es t R C = f R C := by
  have hmod : (t + R * tileStride es) % tileStride es = t := by
    rw [Nat.add_mul_mod_self_right, Nat.mod_eq_of_lt ht]
  have hdiv : (t + R * tileStride es) / tileStride es = R := by
    rw [Nat.add_mul_div_right _ _ (tileStride_pos es), Nat.div_eq_of_lt ht, Nat.zero_add]
  rw [VectorState.tileElem, readZa_writeTile v es t f _ (row_lt es t vl R ht hR), hmod, hdiv,
    if_pos rfl]
  exact elem_packElems _ _ _ _ _ hC (side_mul_bits _ _).le

/-- A vector of the ZA array that is no row of the tile keeps its value. -/
theorem readZa_writeTile_other (i : Nat) (hi : i % tileStride es ≠ t) :
    (v.writeTile es t f).readZa i = v.readZa i := by
  rcases Nat.lt_or_ge i vl.zaVectors with h | h
  · rw [readZa_writeTile v es t f i h, if_neg hi]
  · rw [VectorState.readZa, VectorState.readZa, vectorAt, vectorAt,
      Vector.getElem?_eq_none h, Vector.getElem?_eq_none h]

end Sys2Proof.Machine
end

