-- ==== Sys2Proof/Laws/Usmop4a.lean ====
section
/-! SUPPORT. What one execution answers. -/

namespace Sys2Proof.Machine

open Sys2Proof

section Outcome
variable (es : ESize) (nreg mreg da : Nat) (n m : Fin 32) (word : Word) (s : State)

/-- The enable check passes exactly when all three conditions hold. -/
theorem enableCheck_eq_none : s.enableCheck = none ↔
    s.cfg.smeAccessEnabled = true ∧ s.pstateSM = true ∧ s.pstateZA = true := by
  unfold State.enableCheck
  cases s.cfg.smeAccessEnabled <;> cases s.pstateSM <;> cases s.pstateZA <;> simp

/-- The shared operation answers a next state exactly when both tests pass, and which. -/
theorem usmop4a_eq_next (t : State) : usmop4a es nreg mreg da n m word s = .next t ↔
    implemented s.cfg es = true ∧ s.enableCheck = none ∧
      t = s.complete (s.vec.accumulate es nreg mreg da n m) := by
  unfold usmop4a State.raise
  cases implemented s.cfg es <;> cases s.enableCheck <;> simp [eq_comm]

/-- The shared operation faults exactly when a test fails, and how. -/
theorem usmop4a_eq_fault (f : Fault) : usmop4a es nreg mreg da n m word s = .fault f ↔
    implemented s.cfg es = false ∧ f = .undefined s.pc word ∨
    implemented s.cfg es = true ∧
      ∃ reason, s.enableCheck = some reason ∧ f = .smeAccess reason s.pc word := by
  unfold usmop4a State.raise
  cases implemented s.cfg es <;> cases s.enableCheck <;> simp [eq_comm]

/-- The shared operation never refuses. -/
theorem usmop4a_ne_refused (r : Refusal) : usmop4a es nreg mreg da n m word s ≠ .refused r := by
  unfold usmop4a State.raise
  cases implemented s.cfg es <;> cases s.enableCheck <;> simp

/-- The feature test passes exactly when the features the form needs are implemented. -/
theorem implemented_iff (cfg : Config) : implemented cfg es = true ↔ HasFeatures cfg es := by
  cases es <;> simp [implemented, HasFeatures]

/-- Every meaning is the shared operation on the decode variables of its form. -/
theorem exec_eq_usmop4a (i : Instr) : exec i s =
    usmop4a (formSize i) (pageVars i).nreg (pageVars i).mreg (formTile i)
      (Fin.ofNat 32 (pageVars i).n) (Fin.ofNat 32 (pageVars i).m) (encode i) s := by
  cases i <;> simp only [formSize, formTile, pageVars, Fin.ofNat_val_eq_self] <;> rfl

/-- The destination tile of a form exists. -/
theorem formTile_lt (i : Instr) : formTile i < tileStride (formSize i) := by
  cases i <;> simp only [formTile, formSize, tileStride, ESize.bits] <;> omega

end Outcome

section Effect
variable {vl : VecLen} (v : VectorState vl) (es : ESize) (nreg mreg da : Nat) (n m : Fin 32)

/-- The destination tile after a completed execution. -/
theorem tileElem_accumulate (R C : Nat) (hda : da < tileStride es) (hR : R < side vl es)
    (hC : C < side vl es) :
    (v.accumulate es nreg mreg da n m).tileElem es da R C = v.newElem es nreg mreg da n m R C :=
  tileElem_writeTile_same v es da _ R C hda hR hC

/-- A vector of the ZA array outside the destination tile after a completed execution. -/
theorem readZa_accumulate_other (i : Nat) (hi : i % tileStride es ≠ da) :
    (v.accumulate es nreg mreg da n m).readZa i = v.readZa i :=
  readZa_writeTile_other v es da _ i hi

end Effect

end Sys2Proof.Machine
end

