-- ==== Sys2Proof/Tests/Slice0.lean ====
section
/-! SUPPORT. Small tests. Expected results are the spec's: 95_test_vectors.md V1, V2, V3, TV-A to TV-D, P4,
and the words of 30_encoding.md R58 written out. Then, for each statement with hypotheses, a state and
operands that meet them. -/

namespace Sys2Proof.Tests

open Sys2Proof Sys2Proof.Machine

/-! ## Well-formedness: one ill-formed term for each check -/

theorem test_wf_first_odd : (Instr.usmop4aS11 0 1 16).wellFormed = false := by decide
theorem test_wf_first_high : (Instr.usmop4aS21 0 16 16).wellFormed = false := by decide
theorem test_wf_second_odd : (Instr.usmop4aD11 0 0 17).wellFormed = false := by decide
theorem test_wf_second_low : (Instr.usmop4aD22 7 14 14).wellFormed = false := by decide
theorem test_wf_good : (Instr.usmop4aD22 7 14 30).wellFormed = true := by decide

/-! ## Decoding: words written out from the patterns of R58, bit 31 first -/

-- 1000 0001 0001 mmm0 1000 000n nn00 00aa with m = 001, n = 001, a = 10 (V1: 0x81128042)
theorem test_decode_S12 :
    decodeWord 0b10000001000100101000000001000010 = .ok (.usmop4aS12 2 2 18) := by decide
-- m = 111, n = 111, a = 11 (V1: 0x810E81C3)
theorem test_decode_S11 :
    decodeWord 0b10000001000011101000000111000011 = .ok (.usmop4aS11 3 14 30) := by decide
-- m = 101, n = 011, a = 01 (V1: 0x810A82C1)
theorem test_decode_S21 :
    decodeWord 0b10000001000010101000001011000001 = .ok (.usmop4aS21 1 6 26) := by decide
-- m = 111, n = 000, a = 00 (V1: 0x811E8200)
theorem test_decode_S22 :
    decodeWord 0b10000001000111101000001000000000 = .ok (.usmop4aS22 0 0 30) := by decide
-- 1010 0001 1101 mmm0 0000 000n nn00 1aaa with m = 111, n = 000, a = 100 (V1: 0xA1DE000C)
theorem test_decode_D12 :
    decodeWord 0b10100001110111100000000000001100 = .ok (.usmop4aD12 4 0 30) := by decide
-- m = 010, n = 010, a = 101 (V1: 0xA1C4008D)
theorem test_decode_D11 :
    decodeWord 0b10100001110001000000000010001101 = .ok (.usmop4aD11 5 4 20) := by decide
-- m = 010, n = 100, a = 110 (V1: 0xA1C4030E)
theorem test_decode_D21 :
    decodeWord 0b10100001110001000000001100001110 = .ok (.usmop4aD21 6 8 20) := by decide
-- m = 000, n = 101, a = 011 (V1: 0xA1D0034B)
theorem test_decode_D22 :
    decodeWord 0b10100001110100000000001101001011 = .ok (.usmop4aD22 3 10 16) := by decide

-- V1's bytes in memory order, with a byte after them.
theorem test_decode_bytes :
    decodeBytes [0xC1, 0x82, 0x0A, 0x81, 0x55] = .ok (.usmop4aS21 1 6 26, [0x55]) := by decide
theorem test_decode_short : decodeBytes [0x00, 0x80, 0x00] = .error .tooFewBytes := by decide

-- V2: words that differ from a row in one fixed bit, and unrelated words.
theorem test_decode_refuses :
    ([0x81008010, 0x80008000, 0x81208000, 0x81018000, 0x81008020, 0x81008004, 0x81000000, 0xA1C00000,
      0xA1C00018, 0xA1C08008, 0xA1800008, 0xC1008000, 0, 0xFFFFFFFF, 0xD503201F] : List Word).all
      (fun w => decodeWord w = .error (.matchesNoRow w)) = true := by decide

theorem test_encode :
    [encode (.usmop4aS12 1 10 20), encode (.usmop4aS22 3 14 30), encode (.usmop4aD21 6 8 20),
      encode (.usmop4aD22 7 14 30)] = [0x81148141, 0x811E83C3, 0xA1C4030E, 0xA1DE03CF] := by decide

/-! ## One step: TV-A to TV-D -/

/-- A listed number, or zero. -/
def listed (values : List (Nat × Nat)) (i : Nat) : Nat := (values.lookup i).getD 0

/-- Reset with a vector length and the listed Z registers and ZA vectors. -/
def vectorState (vl : VecLen) (z za : List (Nat × Nat)) : State where
  cfg := ⟨vl, true, true, true⟩
  programBase := 0
  programLength := 0
  mem := []
  vec := ⟨Vector.ofFn fun i => BitVec.ofNat _ (listed z i), Vector.ofFn fun i => BitVec.ofNat _ (listed za i)⟩
  pstateSM := false
  pstateZA := false
  pc := 0x1000

/-- Vectors of the ZA array after one word is launched and run. -/
def zaAfter (s : State) (w : Nat) (vectors : List Nat) : Option (List Nat) :=
  match step (s.withFetchWord 32 w) with
  | .next t => some (vectors.map fun i => (t.vec.readZa i).toNat)
  | _ => none

/-- TV-A, with its tile before. -/
def tvA : State := vectorState .vl128
  [(0, 0xFFFFFFFF0C0B0A090807060504030201), (16, 0x7F7F7F7F80808080FCFDFEFF01010101)]
  [(0, 0x000000000000000000000064FFFFFFFF), (12, 0x7FFFFFFF800000000000000000000000)]

/-- TV-B. -/
def tvB : State := vectorState .vl128
  [(2, 0x00000007000000050000000300000002), (3, 0x00000013000000110000000D0000000B),
   (18, 0x00000004000000030000000200000001), (19, 0x000000FC000000FD000000FE000000FF)] []

/-- TV-C. -/
def tvC : State := vectorState .vl128
  [(4, 0x000100007FFF8000000300020001FFFF), (20, 0xFFFF00037FFF7FFF0002FFFF00018000)]
  [(5, 0x7FFFFFFFFFFFFFFF0000000000000000), (13, 0xFFFFFFFFFFFFFFFF8000000000000000)]

/-- TV-D. -/
def tvD : State := vectorState .vl256
  [(14, 0xFFFF000000000007FFFF000000000005FFFF000000000003FFFF000000000002),
   (15, 0x80000000000000138000000000000011800000000000000D800000000000000B),
   (30, 0x0001000000000004000100000000000300010000000000020001000000000001),
   (31, 0xFFFF00000000FFFCFFFF00000000FFFDFFFF00000000FFFEFFFF00000000FFFF)] []

theorem test_S11_signs_and_wrap : zaAfter tvA 0x81008000 [0, 12] =
    some [0x000004F6FFFFFB000000004600000009, 0x8001FA037FFE0200FFFFF60A000003FC] := by decide

theorem test_S11_quarters : zaAfter tvB 0x81028042 [2, 10] =
    some [0x00000008000000060000000400000002, 0x000000140000000F0000000A00000005] := by decide

theorem test_S12_quarters : zaAfter tvB 0x81128042 [2, 10] =
    some [0x00000008000000060000000400000002, 0xFFFFFFECFFFFFFF1FFFFFFF6FFFFFFFB] := by decide

theorem test_S21_quarters : zaAfter tvB 0x81028242 [2, 10] =
    some [0x0000002C000000210000000400000002, 0x00000044000000330000000A00000005] := by decide

theorem test_S22_quarters : zaAfter tvB 0x81128242 [2, 10, 3] =
    some [0x0000002C000000210000000400000002, 0xFFFFFFBCFFFFFFCDFFFFFFF6FFFFFFFB, 0] := by decide

theorem test_D11_signs_and_wrap : zaAfter tvC 0xA1C4008D [5, 13] =
    some [0x800000007FFF0002FFFFFFFF80008005, 0x000000007FFE7FFF7FFFFFFFC0008001] := by decide

theorem test_D11_quarters : zaAfter tvD 0xA1CE01CF [7] =
    some [0x0000000000010007000000000001000500000000000100030000000000010001] := by decide

theorem test_D12_quarters : zaAfter tvD 0xA1DE01CF [23] =
    some [0xFFFFFFFFFFFEFFEDFFFFFFFFFFFEFFF2FFFFFFFFFFFEFFF7FFFFFFFFFFFEFFFC] := by decide

theorem test_D21_quarters : zaAfter tvD 0xA1CE03CF [23] =
    some [0x0000000000008044000000000000803300000000000100090000000000010004] := by decide

theorem test_D22_quarters : zaAfter tvD 0xA1DE03CF [23] =
    some [0xFFFFFFFFFFFF7FBCFFFFFFFFFFFF7FCDFFFFFFFFFFFEFFF7FFFFFFFFFFFEFFFC] := by decide

-- P3's second step: a 64-bit tile accumulates on rows of a 32-bit tile.
theorem test_D11_shared_storage :
    zaAfter (vectorState .vl128 [(4, 0x00000000000000020000000000000001),
        (20, 0x0000000000007FFF0000000000008000)]
      [(4, 0x00000034000000270000000600000003), (8, 0xFFFFFFBCFFFFFFCDFFFFFFF6FFFFFFFB)])
      0xA1C4008C [4, 8] =
    some [0x000000340000802600000005FFFF8003, 0xFFFFFFBCFFFFFFCDFFFFFFF6FFFFFFFB] := by decide

-- The transcription of the page's text gives TV-C too.
theorem test_page_text : ((tvC.vec.pageOperation (pageVars (.usmop4aD11 5 4 20)) (BitVec.allOnes _)).readZa 13).toNat =
    0x000000007FFE7FFF7FFFFFFFC0008001 := by decide

/-! ## Faults and refusals: V3, P4, R45, R124 -/

/-- How a step stopped. -/
def stopOf (s : State) : Option (Sum Fault Refusal) :=
  match step s with
  | .next _ => none
  | .fault f => some (.inl f)
  | .refused r => some (.inr r)

/-- A launched word with the configuration and the two state bits of a row of V3. -/
def v3 (w : Nat) (mop4 i16i64 access sm za : Bool) : State :=
  { vectorState .vl128 [] [] with cfg := ⟨.vl128, mop4, i16i64, access⟩
  }.withFetchWord 32 w |> fun s => { s with pstateSM := sm, pstateZA := za }

theorem test_F1 : stopOf (v3 0x81008000 true true true true true) = none := by decide
theorem test_F2 : stopOf (v3 0x81008000 false true true true true) =
    some (.inl (.undefined 0x1000 0x81008000)) := by decide
theorem test_F4 : stopOf (v3 0x81008000 true false true true true) = none := by decide
theorem test_F6 : stopOf (v3 0xA1C00008 true false true true true) =
    some (.inl (.undefined 0x1000 0xA1C00008)) := by decide
theorem test_F7 : stopOf (v3 0xA1C00008 false true true true true) =
    some (.inl (.undefined 0x1000 0xA1C00008)) := by decide
theorem test_F9 : stopOf (v3 0x81008000 true true false true true) =
    some (.inl (.smeAccess .accessDisabled 0x1000 0x81008000)) := by decide
theorem test_F11 : stopOf (v3 0x81008000 true true true true false) =
    some (.inl (.smeAccess .zaDisabled 0x1000 0x81008000)) := by decide
theorem test_F12 : stopOf (v3 0x81008000 true true true false false) =
    some (.inl (.smeAccess .notStreaming 0x1000 0x81008000)) := by decide
theorem test_F13 : stopOf (v3 0x81008000 true true false false false) =
    some (.inl (.smeAccess .accessDisabled 0x1000 0x81008000)) := by decide
theorem test_F16 : stopOf (v3 0x81008000 false true false false false) =
    some (.inl (.undefined 0x1000 0x81008000)) := by decide
theorem test_F19 : stopOf (v3 0x81008010 false false false false false) =
    some (.inr (.outsideSpec 0x1000 0x81008010)) := by decide

/-- A program of one word at an address, with a pc. -/
def placed (base pc : Addr) : State :=
  { State.reset.launch base [0x81008001] with pc := pc }

theorem test_base_misaligned : stopOf (placed 2 2) = some (.inr (.badProgram 2 1)) := by decide
theorem test_base_too_high : stopOf (placed (-4) (-4)) = some (.inr (.badProgram (-4) 1)) := by decide
theorem test_base_highest : stopOf (placed (-8) (-8)) = none := by decide
theorem test_end_of_run : stopOf (placed (-8) (-4)) = some (.inr (.endOfRun (-4))) := by decide
theorem test_pc_misaligned : stopOf (placed 0x1000 0x1002) = some (.inr (.badPc 0x1002)) := by decide
theorem test_pc_below : stopOf (placed 0x1000 0xFFC) = some (.inr (.badPc 0xFFC)) := by decide
theorem test_pc_past_end : stopOf (placed 0x1000 0x1008) = some (.inr (.badPc 0x1008)) := by decide
theorem test_missing_word :
    stopOf { placed 0x1000 0x1000 with mem := [(0x1000, 1)] } = some (.inr (.missingWord 0x1000)) := by
  decide
theorem test_reset_has_ended : stopOf State.reset = some (.inr (.endOfRun 0)) := by decide

-- R42: the bytes of 0x81008001 in memory order.
theorem test_memory_order : (placed 0x1000 0x1000).mem =
    [(0x1000, 0x01), (0x1001, 0x80), (0x1002, 0x00), (0x1003, 0x81)] := by decide

-- R42: fetch answers those bytes.
theorem test_fetch_word : (placed 0x1000 0x1000).fetch = .ok [0x01, 0x80, 0x00, 0x81] := by decide

theorem test_table_word : decodeTableWord 32 0xA1D00208 = some (.usmop4aD22 0 0 16) := by decide

/-! ## Witnesses: states and operands that meet the hypotheses of the statements -/

/-- Reset with a 32-bit form launched: Ready for both element sizes. -/
def launched32 : State := State.reset.withFetchWord 32 0x81128042

/-- Reset with a 64-bit form launched. -/
def launched64 : State := State.reset.withFetchWord 32 0xA1DE01CF

/-- TV-B with its fourth word launched. -/
def launchedB : State := tvB.withFetchWord 32 0x81128242

theorem witness_Completes32 : launched32.Ready .e32 ∧
    ([.usmop4aS12 0 0 16, .usmop4aS11 3 14 30, .usmop4aS21 1 6 26, .usmop4aS22 3 14 30] : List Instr).all
      (fun i => i.wellFormed && formSize i == .e32) = true := by decide

theorem witness_Completes64 : launched64.Ready .e64 ∧
    ([.usmop4aD12 7 14 30, .usmop4aD11 0 0 16, .usmop4aD21 6 8 20, .usmop4aD22 7 0 30] : List Instr).all
      (fun i => i.wellFormed && formSize i == .e64) = true := by decide

theorem witness_PageOperation_RunTwice : (Instr.usmop4aD12 7 14 30).wellFormed = true ∧
    launched64.Ready (formSize (.usmop4aD12 7 14 30)) := by decide

theorem witness_DecodeEncode : (Instr.usmop4aS21 3 14 30).wellFormed = true ∧
    (Instr.usmop4aD22 7 0 16).wellFormed = true := by decide

theorem witness_OperandsFromFields : decodeWord 0x811E83C3 = .ok (.usmop4aS22 3 14 30) ∧
    decodeWord 0xA1C00008 = .ok (.usmop4aD11 0 0 16) := by decide

theorem witness_RowOrderIrrelevant : opcodeTable.reverse.Perm opcodeTable ∧
    ∃ r, opcodeTable[7]? = some r ∧ r.hits 0xA1DE03CF = true :=
  ⟨List.reverse_perm _, _, rfl, by decide⟩

theorem witness_StepRunsDecodedInstruction : launched32.OnWord 0x81128042 ∧
    decodeWord 0x81128042 = .ok (.usmop4aS12 2 2 18) := by decide

theorem witness_WordOutsideTableRefused : (v3 0x81008010 true true true true true).OnWord 0x81008010 ∧
    ∀ r ∈ matchAndMask, (0x81008010 : Word) &&& r.2 ≠ r.1 :=
  ⟨by decide, by simp [matchAndMask]⟩

theorem witness_Inv_onWord : (placed 0x1000 0x1000).Inv ∧ (placed (-8) (-8)).Inv := by decide

theorem witness_Inv_atEnd : (placed 0x1000 0x1004).Inv ∧ State.reset.Inv := by decide

theorem witness_StepKeepsLaunchStates : (placed 0x1000 0x1000).Inv ∧
    stopOf (placed 0x1000 0x1000) = none := by decide

theorem witness_RunAdvancesWordByWord : ∃ t, core.run 1 (placed 0x1000 0x1000) = .next t := by
  obtain ⟨t, ht⟩ : ∃ t, step (placed 0x1000 0x1000) = .next t := ⟨_, rfl⟩
  exact ⟨t, (run_succ_eq_next _ _ _).mpr ⟨t, ht, rfl⟩⟩

theorem witness_LaunchedWordRunsNext : (placed 0x1000 0x1000).mem.wf ∧
    decodeWord 0x81008000 = .ok (.usmop4aS11 0 0 16) := by decide

theorem witness_ZeroSource_first : (Instr.usmop4aS22 0 0 18).wellFormed = true ∧
    launchedB.Ready (formSize (.usmop4aS22 0 0 18)) ∧
    ∀ r ∈ firstSource (.usmop4aS22 0 0 18), launchedB.vec.readZ (Fin.ofNat 32 r) = 0 := by decide

theorem witness_ZeroSource_second : (Instr.usmop4aD22 0 2 20).wellFormed = true ∧
    launchedB.Ready (formSize (.usmop4aD22 0 2 20)) ∧
    ∀ r ∈ secondSource (.usmop4aD22 0 2 20), launchedB.vec.readZ (Fin.ofNat 32 r) = 0 := by decide

theorem witness_EqualPairs : firstRegisterOk 14 = true ∧ secondRegisterOk 30 = true ∧
    launched32.vec.readZ (14 + 1) = launched32.vec.readZ 14 ∧
    launched32.vec.readZ (30 + 1) = launched32.vec.readZ 30 ∧
    launched32.Ready .e32 ∧ launched32.Ready .e64 := by decide

-- The element at row 2, column 2 of TV-B's fourth tile: 17 times -3.
theorem witness_SignedSum : (Instr.usmop4aS22 2 2 18).wellFormed = true ∧
    launchedB.Ready (formSize (.usmop4aS22 2 2 18)) ∧
    2 < side launchedB.cfg.vl (formSize (.usmop4aS22 2 2 18)) ∧
    (launchedB.vec.tileElem .e32 2 2 2).toInt + containerDot 8
      (launchedB.vec.readZ (registerFor (firstSource (.usmop4aS22 2 2 18)) 1))
      (launchedB.vec.readZ (registerFor (secondSource (.usmop4aS22 2 2 18)) 1)) 2 2 = -51 ∧
    (-51 : Int) < 2 ^ (ESize.e32.bits - 1) ∧ -(2 ^ (ESize.e32.bits - 1)) ≤ (-51 : Int) := by decide

-- The operands of one instruction agree in two states whose other registers differ.
theorem witness_ResultDependsOnlyOnOperands : (Instr.usmop4aS12 2 2 18).wellFormed = true ∧
    launchedB.Ready (formSize (.usmop4aS12 2 2 18)) ∧
    (∀ r ∈ firstSource (.usmop4aS12 2 2 18) ++ secondSource (.usmop4aS12 2 2 18),
      (VectorState.mk (launchedB.vec.z.set 4 7) launchedB.vec.za).readZ (Fin.ofNat 32 r) =
        launchedB.vec.readZ (Fin.ofNat 32 r)) ∧
    ∀ R C, (VectorState.mk (launchedB.vec.z.set 4 7) launchedB.vec.za).tileElem .e32 2 R C =
      launchedB.vec.tileElem .e32 2 R C :=
  ⟨by decide, by decide, by decide, fun _ _ => rfl⟩

theorem witness_CompletedFrame : ∃ t, exec (.usmop4aD12 7 14 30) launched64 = .next t := ⟨_, rfl⟩

theorem witness_StepChangesOnlyZaAndPc : ∃ t, step launched64 = .next t := ⟨_, rfl⟩

theorem witness_DisjointTiles_sameSize : (Instr.usmop4aD11 0 0 16).wellFormed = true ∧
    (Instr.usmop4aD22 4 2 18).wellFormed = true ∧
    launched64.Ready (formSize (.usmop4aD11 0 0 16)) ∧
    launched64.Ready (formSize (.usmop4aD22 4 2 18)) ∧
    formSize (.usmop4aD11 0 0 16) = formSize (.usmop4aD22 4 2 18) ∧
    formTile (.usmop4aD11 0 0 16) ≠ formTile (.usmop4aD22 4 2 18) := by decide

theorem witness_DisjointTiles_mixed : (Instr.usmop4aS11 1 0 16).wellFormed = true ∧
    (Instr.usmop4aD22 4 2 18).wellFormed = true ∧
    launched64.Ready (formSize (.usmop4aS11 1 0 16)) ∧
    launched64.Ready (formSize (.usmop4aD22 4 2 18)) ∧
    formTile (.usmop4aS11 1 0 16) % 4 ≠ formTile (.usmop4aD22 4 2 18) % 4 := by decide

theorem witness_TilesShareStorage : 3 < 4 ∧ 3 < side .vl128 .e32 ∧ 1 < side .vl128 .e64 := by decide

theorem witness_TileIsRowMajor : 3 < 2 * dim .vl128 .e32 ∧ 1 < 2 * dim .vl128 .e64 := by decide

theorem witness_MissingFeature : (v3 0x81008000 false true true true true).OnWord 0x81008000 ∧
    (∃ r ∈ matchAndMask.take 4, (0x81008000 : Word) &&& r.2 = r.1) ∧
    (v3 0xA1C00008 true false true true true).OnWord 0xA1C00008 ∧
    (∃ r ∈ matchAndMask.drop 4, (0xA1C00008 : Word) &&& r.2 = r.1) := by decide

theorem witness_EnableCheckOrder_access :
    HasFeatures (v3 0xA1C00008 true true false false false).cfg (formSize (.usmop4aD11 0 0 16)) ∧
    (v3 0xA1C00008 true true false false false).cfg.smeAccessEnabled = false := by decide

theorem witness_EnableCheckOrder_streaming :
    HasFeatures (v3 0x81008000 true false true false false).cfg (formSize (.usmop4aS11 0 0 16)) ∧
    (v3 0x81008000 true false true false false).cfg.smeAccessEnabled = true ∧
    (v3 0x81008000 true false true false false).pstateSM = false := by decide

theorem witness_EnableCheckOrder_za :
    HasFeatures (v3 0xA1C00008 true true true true false).cfg (formSize (.usmop4aD11 0 0 16)) ∧
    (v3 0xA1C00008 true true true true false).cfg.smeAccessEnabled = true ∧
    (v3 0xA1C00008 true true true true false).pstateSM = true ∧
    (v3 0xA1C00008 true true true true false).pstateZA = false := by decide

theorem witness_FaultRecordsPcAndWord :
    ∃ f, step (v3 0x81008000 true true true false true) = .fault f := ⟨_, rfl⟩

end Sys2Proof.Tests
end

section
/-! What a completed execution leaves unchanged, and how the tiles of the ZA array share its vectors
(10_state.md sections 1, 2 and 5). -/

namespace Sys2Proof.Machine

open Sys2Proof

/-! ## The vectors of a tile -/

/-- The array index of a tile's row is the tile's number modulo the stride (10_state.md R26). -/
theorem rowIndex_mod_tileStride (es : ESize) {t : Nat} (ht : t < tileStride es) (R : Nat) :
    (t + R * tileStride es) % tileStride es = t := by
  rw [Nat.add_mul_mod_self_right, Nat.mod_eq_of_lt ht]

/-- No vector of the ZA array is a row of both tiles (10_state.md R26). -/
def TilesDisjoint (es : ESize) (t : Nat) (es' : ESize) (t' : Nat) : Prop :=
  ∀ k, k % tileStride es = t → k % tileStride es' ≠ t'

theorem TilesDisjoint.symm {es es' : ESize} {t t' : Nat} (h : TilesDisjoint es t es' t') :
    TilesDisjoint es' t' es t :=
  fun k hk' hk => h k hk hk'

theorem tilesDisjoint_of_ne {es : ESize} {t t' : Nat} (h : t ≠ t') : TilesDisjoint es t es t' :=
  fun _ hk hk' => h (hk.symm.trans hk')

theorem four_dvd_tileStride (es : ESize) : 4 ∣ tileStride es := by cases es <;> decide

/-- Tiles of any two sizes whose numbers differ modulo 4 are disjoint: each stride is a multiple
of 4. -/
theorem tilesDisjoint_of_mod_four_ne {es es' : ESize} {t t' : Nat} (h : t % 4 ≠ t' % 4) :
    TilesDisjoint es t es' t' := by
  rintro k rfl rfl
  rw [Nat.mod_mod_of_dvd _ (four_dvd_tileStride es),
    Nat.mod_mod_of_dvd _ (four_dvd_tileStride es')] at h
  exact h rfl

/-! ## Writing a tile -/

section WriteTile
variable {vl : VecLen} (v : VectorState vl) {es es' : ESize} {t t' : Nat}

/-- Vector registers are equal when their Z registers and all their ZA vectors are. -/
theorem VectorState.eq_of_readZa_eq {u v : VectorState vl} (hz : u.z = v.z)
    (hza : ∀ i < vl.zaVectors, u.readZa i = v.readZa i) : u = v := by
  obtain ⟨z, za⟩ := u
  obtain ⟨z', za'⟩ := v
  have hvectors : za = za' := Vector.ext fun i hi => by
    simpa only [VectorState.readZa, vectorAt_of_lt _ _ hi] using hza i hi
  rw [hvectors, show z = z' from hz]

/-- Writing a tile leaves every element of a disjoint tile as it was. -/
theorem tileElem_writeTile_of_disjoint (f : Nat → Nat → BitVec es.bits)
    (h : TilesDisjoint es t es' t') (ht' : t' < tileStride es') (R C : Nat) :
    (v.writeTile es t f).tileElem es' t' R C = v.tileElem es' t' R C := by
  have hrow := h.symm _ (rowIndex_mod_tileStride es' ht' R)
  rw [VectorState.tileElem, readZa_writeTile_other v es t f _ hrow, VectorState.tileElem]

/-- Writes of disjoint tiles commute. -/
theorem writeTile_comm (f : Nat → Nat → BitVec es.bits) (f' : Nat → Nat → BitVec es'.bits)
    (h : TilesDisjoint es t es' t') :
    (v.writeTile es t f).writeTile es' t' f' = (v.writeTile es' t' f').writeTile es t f := by
  refine VectorState.eq_of_readZa_eq rfl fun i hi => ?_
  by_cases hrow : i % tileStride es = t
  · rw [readZa_writeTile_other _ es' t' f' i (h i hrow), readZa_writeTile _ es t f i hi,
      readZa_writeTile _ es t f i hi, if_pos hrow, if_pos hrow]
  · rw [readZa_writeTile_other _ es t f i hrow]
    by_cases hrow' : i % tileStride es' = t'
    · rw [readZa_writeTile _ es' t' f' i hi, readZa_writeTile _ es' t' f' i hi, if_pos hrow',
        if_pos hrow']
    · rw [readZa_writeTile_other _ es' t' f' i hrow', readZa_writeTile_other _ es' t' f' i hrow',
        readZa_writeTile_other _ es t f i hrow]

end WriteTile

/-! ## A completed execution -/

/-- The vector registers an instruction leaves when it completes. -/
def VectorState.accumulateFor {vl : VecLen} (v : VectorState vl) (i : Instr) : VectorState vl :=
  v.accumulate (formSize i) (pageVars i).nreg (pageVars i).mreg (formTile i)
    (Fin.ofNat 32 (pageVars i).n) (Fin.ofNat 32 (pageVars i).m)

/-- Completing an instruction leaves what decides whether the next one executes. -/
@[simp] theorem ready_complete (s : State) (v : VectorState s.cfg.vl) (es : ESize) :
    (s.complete v).Ready es ↔ s.Ready es :=
  Iff.rfl

/-- When an instruction answers a next state, and which. -/
theorem exec_eq_next (i : Instr) (s t : State) :
    exec i s = .next t ↔ s.Ready (formSize i) ∧ t = s.complete (s.vec.accumulateFor i) := by
  rw [exec_eq_usmop4a, usmop4a_eq_next, implemented_iff, enableCheck_eq_none, ← and_assoc]
  rfl

/-- A ready instruction completes. -/
theorem exec_of_ready {i : Instr} {s : State} (h : s.Ready (formSize i)) :
    exec i s = .next (s.complete (s.vec.accumulateFor i)) :=
  (exec_eq_next i s _).mpr ⟨h, rfl⟩

/-- Two ready instructions complete one after the other. -/
theorem exec_exec_of_ready {i j : Instr} {s : State} (hi : s.Ready (formSize i))
    (hj : s.Ready (formSize j)) : ∃ t, exec i s = .next t ∧
      exec j t = .next
        { s with vec := (s.vec.accumulateFor i).accumulateFor j, pc := s.pc + 4 + 4 } :=
  ⟨_, exec_of_ready hi, exec_of_ready ((ready_complete s _ _).mpr hj)⟩

section Accumulate
variable {vl : VecLen} (v : VectorState vl) (i j : Instr)

@[simp] theorem accumulateFor_z : (v.accumulateFor i).z = v.z := rfl

@[simp] theorem readZ_accumulateFor (r : Fin 32) : (v.accumulateFor i).readZ r = v.readZ r := rfl

/-- A new element is the same in registers that agree on the Z registers and on the old element. -/
theorem newElem_congr {u v : VectorState vl} {es : ESize} {da R C : Nat} (nreg mreg : Nat)
    (n m : Fin 32) (hz : u.z = v.z) (hold : u.tileElem es da R C = v.tileElem es da R C) :
    u.newElem es nreg mreg da n m R C = v.newElem es nreg mreg da n m R C := by
  simp only [VectorState.newElem, VectorState.readZ, hz, hold]

/-- An execution leaves every element of a tile disjoint from its destination as it was. -/
theorem tileElem_accumulateFor_of_disjoint {es : ESize} {t : Nat}
    (h : TilesDisjoint (formSize i) (formTile i) es t) (ht : t < tileStride es) (R C : Nat) :
    (v.accumulateFor i).tileElem es t R C = v.tileElem es t R C :=
  tileElem_writeTile_of_disjoint v _ h ht R C

/-- After an instruction with a disjoint destination tile, an instruction writes the very elements
it would have written before it. -/
theorem accumulateFor_accumulateFor
    (h : TilesDisjoint (formSize i) (formTile i) (formSize j) (formTile j)) :
    (v.accumulateFor i).accumulateFor j =
      (v.accumulateFor i).writeTile (formSize j) (formTile j)
        (v.newElem (formSize j) (pageVars j).nreg (pageVars j).mreg (formTile j)
          (Fin.ofNat 32 (pageVars j).n) (Fin.ofNat 32 (pageVars j).m)) := by
  refine congrArg ((v.accumulateFor i).writeTile (formSize j) (formTile j)) ?_
  funext R C
  exact newElem_congr _ _ _ _ rfl (tileElem_accumulateFor_of_disjoint v i h (formTile_lt j) R C)

/-- Executions with disjoint destination tiles commute on the vector registers. -/
theorem accumulateFor_comm
    (h : TilesDisjoint (formSize i) (formTile i) (formSize j) (formTile j)) :
    (v.accumulateFor i).accumulateFor j = (v.accumulateFor j).accumulateFor i := by
  rw [accumulateFor_accumulateFor v i j h, accumulateFor_accumulateFor v j i h.symm]
  exact writeTile_comm v _ _ h

end Accumulate

/-! ## Elements of elements -/

/-- An element of an element is an element of the vector: `w`-bit elements, `count` of them in each
wider one. -/
theorem elem_elem {l : Nat} (v : BitVec l) (i j w count : Nat) (hj : j < count) :
    elem (elem v i (count * w)) j w = elem v (i * count + j) w := by
  apply BitVec.eq_of_getLsbD_eq
  intro b hb
  have hfit : j * w + b < count * w := by
    have := Nat.mul_le_mul_right w (Nat.succ_le_of_lt hj)
    rw [Nat.succ_mul] at this
    omega
  have hindex : i * (count * w) + (j * w + b) = (i * count + j) * w + b := by ring
  simp only [getLsbD_elem, hfit, hindex, decide_true, Bool.true_and]

/-- An element as a number is its two halves: the odd one high, the even one low. -/
theorem toNat_elem_double {l : Nat} (v : BitVec l) (i w : Nat) :
    (elem v i (w + w)).toNat =
      (elem v (2 * i + 1) w).toNat * 2 ^ w + (elem v (2 * i) w).toNat := by
  have hlow : i * (w + w) = 2 * i * w := by ring
  have hhigh : (2 * i + 1) * w = 2 * i * w + w := by ring
  simp only [elem, BitVec.extractLsb'_toNat, hlow, hhigh, Nat.shiftRight_add]
  rw [pow_add, Nat.mod_mul, Nat.shiftRight_eq_div_pow _ w, Nat.add_comm, Nat.mul_comm]

/-- The rows of a tile, one after the other, are the whole tile (10_state.md R24). -/
theorem side_mul_vl_bits (vl : VecLen) (es : ESize) : side vl es * vl.bits = tileSize vl es := by
  cases vl <;> cases es <;> rfl

/-- Row `R` of the 32-bit tile `t` is the vector that is row `R/2` of the 64-bit tile `t` or `t+4`
(10_state.md R26). -/
theorem rowIndex_e64_eq_e32 (t R : Nat) :
    t + 4 * (R % 2) + R / 2 * tileStride .e64 = t + R * tileStride .e32 := by
  simp only [tileStride, ESize.bits]
  omega

/-! ## The statements -/

/-- Settles O37: the two executions write disjoint sets of ZA vectors, and neither reads what the
other writes. -/
theorem disjointTilesCommute : Obligations.DisjointTilesCommute := by
  intro s i j _ _ hi hj hdisjoint
  have h : TilesDisjoint (formSize i) (formTile i) (formSize j) (formTile j) := by
    obtain ⟨hsize, htile⟩ | hmod := hdisjoint
    · rw [← hsize]
      exact tilesDisjoint_of_ne htile
    · exact tilesDisjoint_of_mod_four_ne hmod
  obtain ⟨t, hit, hjt⟩ := exec_exec_of_ready hi hj
  obtain ⟨u, hju, hiu⟩ := exec_exec_of_ready hj hi
  rw [← accumulateFor_comm s.vec i j h] at hiu
  exact ⟨t, u, _, hit, hjt, hju, hiu⟩

/-- Settles O33: what completes is the destination tile's write, whose rows are the vectors with the
tile's number modulo the stride. -/
theorem completedFrame : Obligations.CompletedFrame := by
  intro i s t hexec
  obtain ⟨-, rfl⟩ := (exec_eq_next i s t).mp hexec
  refine ⟨rfl, rfl, rfl, fun _ => rfl, rfl, rfl,
    fun r => congrArg BitVec.toNat (readZ_accumulateFor s.vec i r),
    fun k hk => ?_, fun u hu hne R C => ?_⟩
  · exact congrArg BitVec.toNat (readZa_accumulate_other s.vec _ _ _ _ _ _ k hk)
  · exact tileElem_accumulateFor_of_disjoint s.vec i (tilesDisjoint_of_ne hne.symm) hu R C

/-- Settles O34: a step answers a next state only by completing an instruction. -/
theorem stepChangesOnlyZaAndPc : Obligations.StepChangesOnlyZaAndPc := by
  intro s t hstep
  obtain ⟨_, i, _, _, _, hexec⟩ := (step_eq_next s t).mp hstep
  obtain ⟨-, rfl⟩ := (exec_eq_next i s t).mp hexec
  exact ⟨s.vec.accumulateFor i, accumulateFor_z s.vec i, rfl⟩

/-- Settles O35: the element is element `C` of the packed vector's row `R`. -/
theorem tileIsRowMajor : Obligations.TileIsRowMajor := by
  intro vl v es t R C hR hC
  have hrow : elem (v.zaTile es t) R vl.bits = v.readZa (t + R * tileStride es) :=
    elem_packElems _ _ _ _ R hR (side_mul_vl_bits vl es).le
  rw [VectorState.tileElem, ← hrow, ← side_mul_bits vl es,
    elem_elem _ R C _ _ (show C < side vl es from hC), side, mul_assoc]

/-- Settles O36: the two tiles' rows are one vector, and a 64-bit element is two 32-bit ones. -/
theorem tilesShareStorage : Obligations.TilesShareStorage := by
  intro vl v t R C _ _ _
  simp only [VectorState.tileElem, rowIndex_e64_eq_e32]
  exact toNat_elem_double (v.readZa (t + R * tileStride .e32)) C 32

/-- Settles O13: the empty program at 0, of which no byte is to be loaded, has ended. -/
theorem resetIsLaunchState : Obligations.ResetIsLaunchState :=
  ⟨reset_mem_wf, by decide, .inr (by decide), fun k hk => absurd hk (Nat.not_lt_zero k)⟩

end Sys2Proof.Machine
end

section
/-! The states of a launch and its run: what fetch finds in them, and that every step keeps them
(20_memory.md sections 1, 2, 5 and 7; 70_reset_and_hazards.md section 5). -/

namespace Sys2Proof.Machine

open Sys2Proof

/-! ## Fetching the program -/

/-- Bytes that memory holds at consecutive addresses can be read together. -/
theorem readBytes_isSome (mem : Memory) (k : Nat) (a : Addr)
    (h : ∀ j < k, (mem.read (a + BitVec.ofNat 64 j)).isSome = true) :
    (mem.readBytes a k).isSome = true := by
  induction k generalizing a with
  | zero => rfl
  | succ k ih =>
    have hfirst : (mem.read a).isSome = true := by simpa using h 0 k.succ_pos
    have hrest : (mem.readBytes (a + 1) k).isSome = true := by
      refine ih (a + 1) fun j hj => ?_
      have hnext : a + 1 + BitVec.ofNat 64 j = a + BitVec.ofNat 64 (j + 1) := by bv_omega
      simpa only [hnext] using h (j + 1) (Nat.succ_lt_succ hj)
    obtain ⟨b, hb⟩ := Option.isSome_iff_exists.mp hfirst
    obtain ⟨bs, hbs⟩ := Option.isSome_iff_exists.mp hrest
    simp only [Memory.readBytes, hb, hbs, Option.isSome_some]

section Program
variable {s : State}

/-- The address after a word of an allowed program exists (R45). -/
theorem pc_add_four_toNat (hok : s.programOk = true) (hword : s.atWord = true) :
    (s.pc + 4).toNat = s.pc.toNat + 4 := by
  rw [programOk_iff] at hok
  rw [atWord_iff] at hword
  bv_omega

/-- The four bytes of a word of an allowed, loaded program are in memory (R41, R45). -/
theorem read_word_isSome (hok : s.programOk = true) (hword : s.atWord = true) (hloaded : s.Loaded)
    (j : Nat) (hj : j < 4) : (s.mem.read (s.pc + BitVec.ofNat 64 j)).isSome = true := by
  rw [programOk_iff] at hok
  rw [atWord_iff] at hword
  have hoffset : s.pc + BitVec.ofNat 64 j =
      s.programBase + BitVec.ofNat 64 (s.pc.toNat - s.programBase.toNat + j) := by
    bv_omega
  rw [hoffset]
  exact hloaded _ (by omega)

/-- On a word of an allowed, loaded program fetch answers the word's bytes (R41, R42). -/
theorem exists_onWord_of_loaded (hok : s.programOk = true) (hword : s.atWord = true)
    (hloaded : s.Loaded) : ∃ w, s.OnWord w ∧ s.fetch = .ok (bytesOfWord w) := by
  obtain ⟨bs, hbs⟩ := Option.isSome_iff_exists.mp
    (readBytes_isSome s.mem 4 s.pc (read_word_isSome hok hword hloaded))
  have hfetch : s.fetch = .ok bs := (fetch_eq_ok s bs).mpr ⟨hok, hword, hbs⟩
  obtain ⟨w, hon, rfl⟩ := (fetch_iff_onWord s bs).mp hfetch
  exact ⟨w, hon, hfetch⟩

/-- A step refuses for the reason that fetch has. -/
theorem step_of_fetch_error {r : Refusal} (h : s.fetch = .error r) : step s = .refused r := by
  simp only [step, h]

/-- At the end of an allowed program there is nothing to fetch (R124). -/
theorem fetch_of_atEnd (hok : s.programOk = true) (hend : s.atEnd = true) :
    s.fetch = .error (.endOfRun s.pc) := by
  simp [State.fetch, hok, hend]

/-- A step that answers a next state began on a word of an allowed program. -/
theorem atWord_of_step_eq_next {t : State} (h : step s = .next t) :
    s.programOk = true ∧ s.atWord = true := by
  obtain ⟨bs, _, _, hfetch, -, -⟩ := (step_eq_next s t).mp h
  obtain ⟨hok, hword, -⟩ := (fetch_eq_ok s bs).mp hfetch
  exact ⟨hok, hword⟩

/-- The word after a word of an allowed program is another of its words or its end (R124). -/
theorem atWord_or_atEnd_of_pc_add_four {t : State} (hok : s.programOk = true)
    (hword : s.atWord = true) (hbase : t.programBase = s.programBase)
    (hlength : t.programLength = s.programLength) (hpc : t.pc = s.pc + 4) :
    t.atWord = true ∨ t.atEnd = true := by
  have hnext := pc_add_four_toNat hok hword
  rw [programOk_iff] at hok
  rw [atWord_iff] at hword
  rw [atWord_iff, atEnd_iff, hbase, hlength, hpc, hnext]
  omega

end Program

/-! ## The statements -/

/-- Settles O12: a step moves the pc to the following word, which is a word of the program or its end,
and leaves program and memory alone. -/
theorem stepKeepsLaunchStates : Obligations.StepKeepsLaunchStates := by
  rintro s t ⟨hwf, hok, -, hloaded⟩ hstep
  obtain ⟨-, hword⟩ := atWord_of_step_eq_next hstep
  obtain ⟨v, -, rfl⟩ := stepChangesOnlyZaAndPc s t hstep
  exact ⟨hwf, hok, atWord_or_atEnd_of_pc_add_four hok hword rfl rfl rfl, hloaded⟩

/-- Settles O11: on a word the program's bytes are all in memory; at the end fetch says so. -/
theorem fetchFindsWordOrEnd : Obligations.FetchFindsWordOrEnd := by
  rintro s ⟨-, hok, hword | hend, hloaded⟩
  · exact .inl (exists_onWord_of_loaded hok hword hloaded)
  · exact .inr (step_of_fetch_error (fetch_of_atEnd hok hend))

/-- Settles O15, by induction on the number of steps: the first step moves the pc one word and changes
nothing else but the ZA array. -/
theorem runAdvancesWordByWord : Obligations.RunAdvancesWordByWord := by
  intro k
  induction k with
  | zero =>
    intro s t hrun
    obtain rfl := (run_zero_eq_next s t).mp hrun
    exact ⟨by simp, rfl, rfl, rfl, rfl, rfl, rfl, fun _ => rfl⟩
  | succ k ih =>
    intro s t hrun
    obtain ⟨u, hstep, hrest⟩ := (run_succ_eq_next k s t).mp hrun
    obtain ⟨v, hz, rfl⟩ := stepChangesOnlyZaAndPc s u hstep
    obtain ⟨hpc, hcfg, hbase, hlength, hmem, hsm, hza, hreg⟩ := ih _ t hrest
    have hwords : s.pc + 4 + BitVec.ofNat 64 (4 * k) = s.pc + BitVec.ofNat 64 (4 * (k + 1)) := by
      bv_omega
    refine ⟨hpc.trans hwords, hcfg, hbase, hlength, hmem, hsm, hza, fun r => ?_⟩
    rw [hreg r, VectorState.readZ, hz, VectorState.readZ]

end Sys2Proof.Machine
end

section
/-! The rows of the opcode map: what a row fixes in a word, that no word has two rows, and what
decoding answers (30_encoding.md sections 1 to 4). -/

namespace Sys2Proof

open Sys2Proof.Laws.EncodesInRow

/-! ## What a row fixes -/

section Row
variable {r r' : OpcodeRow} {w : Word}

/-- A word of a row has the row's match bit wherever the mask is set. -/
theorem getLsbD_of_hits (h : r.hits w = true) {j : Nat} (hj : r.mask.getLsbD j = true) :
    w.getLsbD j = r.matchBits.getLsbD j := by
  rw [← (hits_eq_true r w).mp h, BitVec.getLsbD_and, hj, Bool.and_true]

/-- Two rows of one word agree on the bits that both fix. -/
theorem matchBits_and_mask_of_hits (h : r.hits w = true) (h' : r'.hits w = true) :
    r.matchBits &&& r'.mask = r'.matchBits &&& r.mask := by
  rw [← (hits_eq_true r w).mp h, ← (hits_eq_true r' w).mp h', BitVec.and_assoc, BitVec.and_assoc,
    BitVec.and_comm r.mask]

/-- Any two rows of the opcode map differ on a bit that both fix (R59). -/
theorem opcodeTable_disjoint : ∀ j k : Fin opcodeTable.length,
    opcodeTable[j].matchBits &&& opcodeTable[k].mask =
      opcodeTable[k].matchBits &&& opcodeTable[j].mask → j = k := by
  decide

/-- No word matches two rows (R59). -/
theorem rowIndex_unique {j k : Nat} (hj : opcodeTable[j]? = some r) (hk : opcodeTable[k]? = some r')
    (h : r.hits w = true) (h' : r'.hits w = true) : j = k := by
  obtain ⟨hlt, rfl⟩ := List.getElem?_eq_some_iff.mp hj
  obtain ⟨hlt', rfl⟩ := List.getElem?_eq_some_iff.mp hk
  exact congrArg Fin.val
    (opcodeTable_disjoint ⟨j, hlt⟩ ⟨k, hlt'⟩ (matchBits_and_mask_of_hits h h'))

/-- The row of a word is unique (R59). -/
theorem row_unique (hr : r ∈ opcodeTable) (hr' : r' ∈ opcodeTable) (h : r.hits w = true)
    (h' : r'.hits w = true) : r = r' := by
  obtain ⟨j, hj⟩ := List.mem_iff_getElem?.mp hr
  obtain ⟨k, hk⟩ := List.mem_iff_getElem?.mp hr'
  obtain rfl := rowIndex_unique hj hk h h'
  exact Option.some.inj (hj.symm.trans hk)

/-- A row reads the instruction of its own form. -/
theorem rowOf_read {k : Nat} (hk : opcodeTable[k]? = some r) (w : Word) : rowOf (r.read w) = k := by
  obtain ⟨hlt, rfl⟩ := List.getElem?_eq_some_iff.mp hk
  change k < 8 at hlt
  interval_cases k <;> rfl

end Row

/-! ## What decoding answers -/

section Decode
variable (w : Word) (i : Instr)

/-- The rows may be searched in any order (R59). -/
theorem find?_hits_of_perm {rows : List OpcodeRow} (h : rows.Perm opcodeTable) :
    rows.find? (·.hits w) = opcodeTable.find? (·.hits w) :=
  List.find?_eq_find?_of_perm h fun _ ⟨hr, hhit⟩ _ ⟨hr', hhit'⟩ =>
    row_unique (h.mem_iff.mp hr) (h.mem_iff.mp hr') hhit hhit'

/-- The search finds the one row that hits. -/
theorem find?_hits_eq_some_iff (r : OpcodeRow) :
    opcodeTable.find? (·.hits w) = some r ↔ r ∈ opcodeTable ∧ r.hits w = true := by
  have hfound : ∀ r', opcodeTable.find? (·.hits w) = some r' →
      r' ∈ opcodeTable ∧ r'.hits w = true :=
    fun _ h => ⟨List.mem_of_find?_eq_some h, by simpa using List.find?_some h⟩
  refine ⟨hfound r, fun ⟨hr, hhit⟩ => ?_⟩
  obtain ⟨r', hfind⟩ := Option.isSome_iff_exists.mp
    (List.find?_isSome (p := (OpcodeRow.hits · w)).mpr ⟨r, hr, hhit⟩)
  obtain ⟨hr', hhit'⟩ := hfound r' hfind
  rw [hfind, row_unique hr' hr hhit' hhit]

/-- A word decodes exactly when a row hits it, to what that row reads. -/
theorem decodeWord_eq_ok_iff :
    decodeWord w = .ok i ↔ ∃ r ∈ opcodeTable, r.hits w = true ∧ r.read w = i := by
  simp only [← and_assoc, ← find?_hits_eq_some_iff, decodeWord, decodeWith]
  cases opcodeTable.find? (·.hits w) <;> simp

variable {w} in
/-- A word of a row decodes to what the row reads. -/
theorem decodeWord_of_hits {r : OpcodeRow} (hr : r ∈ opcodeTable) (h : r.hits w = true) :
    decodeWord w = .ok (r.read w) :=
  (decodeWord_eq_ok_iff w _).mpr ⟨r, hr, h, rfl⟩

/-- A word decodes to a form exactly when the form's row hits it and reads that (R58). -/
theorem decodeWord_eq_ok_iff_rowOf : decodeWord w = .ok i ↔
    ∃ r, opcodeTable[rowOf i]? = some r ∧ r.hits w = true ∧ r.read w = i := by
  rw [decodeWord_eq_ok_iff]
  constructor
  · rintro ⟨r, hr, hhit, rfl⟩
    obtain ⟨k, hk⟩ := List.mem_iff_getElem?.mp hr
    exact ⟨r, by rwa [rowOf_read hk], hhit, rfl⟩
  · rintro ⟨r, hr, hhit, hread⟩
    exact ⟨r, List.mem_of_getElem? hr, hhit, hread⟩

variable {w} in
/-- A word that no row hits is refused by name (R60). -/
theorem decodeWord_of_not_hits (h : ∀ r ∈ opcodeTable, r.hits w ≠ true) :
    decodeWord w = .error (.matchesNoRow w) := by
  simp only [decodeWord, decodeWith, List.find?_eq_none.mpr h]

end Decode

/-! ## The fields -/

section Fields
variable (w : Word)

@[simp] theorem tileS_val : (tileS w).val = (w.extractLsb' 0 2).toNat := rfl

@[simp] theorem tileD_val : (tileD w).val = (w.extractLsb' 0 3).toNat := rfl

/-- The first source's register is twice `Zn` (R54). -/
@[simp] theorem firstRegister_val : (firstRegister w).val = 2 * (fieldZn w).toNat := by
  have hdouble : ∀ z : BitVec 3, (0#1 ++ z ++ 0#1).toNat = 2 * z.toNat := by decide
  exact hdouble (fieldZn w)

/-- The second source's register is 16 more than twice `Zm` (R54). -/
@[simp] theorem secondRegister_val : (secondRegister w).val = 16 + 2 * (fieldZm w).toNat := by
  have hdouble : ∀ z : BitVec 3, (1#1 ++ z ++ 0#1).toNat = 16 + 2 * z.toNat := by decide
  exact hdouble (fieldZm w)

theorem tileS_eq_iff (da : Fin 4) : tileS w = da ↔ da.val = (w.extractLsb' 0 2).toNat := by
  rw [Fin.ext_iff, tileS_val, eq_comm]

theorem tileD_eq_iff (da : Fin 8) : tileD w = da ↔ da.val = (w.extractLsb' 0 3).toNat := by
  rw [Fin.ext_iff, tileD_val, eq_comm]

theorem firstRegister_eq_iff (n : Fin 32) :
    firstRegister w = n ↔ n.val = 2 * (w.extractLsb' 6 3).toNat := by
  rw [Fin.ext_iff, firstRegister_val, fieldZn, eq_comm]

theorem secondRegister_eq_iff (m : Fin 32) :
    secondRegister w = m ↔ m.val = 16 + 2 * (w.extractLsb' 17 3).toNat := by
  rw [Fin.ext_iff, secondRegister_val, fieldZm, eq_comm]

end Fields

/-! ## What a row reads -/

section Read
variable {r : OpcodeRow} (w : Word)

open Sys2Proof.Machine

/-- Every row fixes the bits `N` (bit 9) and `M` (bit 20) (R58). -/
theorem mask_fixes_counts (hr : r ∈ opcodeTable) :
    r.mask.getLsbD 9 = true ∧ r.mask.getLsbD 20 = true := by
  revert r
  simp [opcodeTable]

/-- The first source is a pair exactly in the rows whose bit 9 is 1 (R55). -/
theorem firstSource_read (hr : r ∈ opcodeTable) : firstSource (r.read w) =
    if r.matchBits.getLsbD 9 then
      [2 * (fieldZn w).toNat, 2 * (fieldZn w).toNat + 1]
    else [2 * (fieldZn w).toNat] := by
  revert r
  simp [opcodeTable, firstSource]

/-- The second source is a pair exactly in the rows whose bit 20 is 1 (R55). -/
theorem secondSource_read (hr : r ∈ opcodeTable) : secondSource (r.read w) =
    if r.matchBits.getLsbD 20 then
      [16 + 2 * (fieldZm w).toNat, 16 + 2 * (fieldZm w).toNat + 1]
    else [16 + 2 * (fieldZm w).toNat] := by
  revert r
  simp [opcodeTable, secondSource]

/-- The tile of a 32-bit row is `W[1:0]`, that of a 64-bit row `W[2:0]` (R54). -/
theorem formTile_read (hr : r ∈ opcodeTable) : formTile (r.read w) =
    match formSize (r.read w) with
      | .e32 => (w.extractLsb' 0 2).toNat
      | .e64 => (w.extractLsb' 0 3).toNat := by
  revert r
  simp [opcodeTable, formTile, formSize]

end Read

/-! ## The statements -/

/-- Settles O4: two rows of a word would agree on the bits that both fix, and no two rows do; so any
order of search finds the one row there is. -/
theorem rowOrderIrrelevant : Obligations.RowOrderIrrelevant := by
  refine ⟨fun w j k _ _ ⟨r, hj, hhit⟩ ⟨r', hk, hhit'⟩ => rowIndex_unique hj hk hhit hhit',
    fun rows hperm w => ?_⟩
  rw [decodeWord, decodeWith, decodeWith, find?_hits_of_perm w hperm]

/-- Settles O2: a word is a form exactly when the form's row hits it and reads its fields. -/
theorem opcodeMapDecodes : Obligations.OpcodeMapDecodes := by
  intro w
  refine ⟨?_, ?_, ?_, ?_, ?_, ?_, ?_, ?_⟩ <;> intro da n m <;>
    simp [decodeWord_eq_ok_iff_rowOf, rowOf, opcodeTable, hits_eq_true, tileS_eq_iff, tileD_eq_iff,
      firstRegister_eq_iff, secondRegister_eq_iff]

/-- Settles O3: a row reads the fields, and says by its bits 9 and 20 which sources are pairs; a
word of the row has those bits. -/
theorem operandsFromFields : Obligations.OperandsFromFields := by
  intro w i hdecode
  obtain ⟨r, hr, hhit, rfl⟩ := (decodeWord_eq_ok_iff w i).mp hdecode
  obtain ⟨hN, hM⟩ := mask_fixes_counts hr
  have hfirst := firstSource_read w hr
  have hsecond := secondSource_read w hr
  rw [← getLsbD_of_hits hhit hN] at hfirst
  rw [← getLsbD_of_hits hhit hM] at hsecond
  refine ⟨hfirst, hsecond, formTile_read w hr, fun reg hreg => ?_, fun reg hreg => ?_⟩
  · have hlt := (fieldZn w).isLt
    rw [hfirst] at hreg
    split at hreg <;> simp only [List.mem_cons, List.not_mem_nil, or_false] at hreg <;> omega
  · have hlt := (fieldZm w).isLt
    rw [hsecond] at hreg
    split at hreg <;> simp only [List.mem_cons, List.not_mem_nil, or_false] at hreg <;> omega

end Sys2Proof
end

section
/-! A step on a fetched word: what it decodes to is run, a word outside the opcode map is refused,
and a form whose features are missing is UNDEFINED (30_encoding.md section 4). -/

namespace Sys2Proof.Machine

open Sys2Proof

/-! ## The word the pc is on -/

section Step
variable {s : State} {w : Word}

/-- Fetch answers the bytes of the word the pc is on. -/
theorem fetch_of_onWord (hon : s.OnWord w) : s.fetch = .ok (bytesOfWord w) :=
  (fetch_iff_onWord s _).mpr ⟨w, hon, rfl⟩

/-- A step on a word that decodes runs the instruction (R70). -/
theorem step_of_decodeWord_ok {i : Instr} (hon : s.OnWord w) (hdecode : decodeWord w = .ok i) :
    step s = exec i s := by
  have hbytes := decodeBytes_bytesOfWord w []
  simp only [List.append_nil, hdecode] at hbytes
  simp only [step, fetch_of_onWord hon, hbytes]

/-- A step on a word that matches no row is refused (R60). -/
theorem step_of_decodeWord_error (hon : s.OnWord w)
    (hdecode : decodeWord w = .error (.matchesNoRow w)) :
    step s = .refused (.outsideSpec s.pc w) := by
  have hbytes := decodeBytes_bytesOfWord w []
  simp only [List.append_nil, hdecode] at hbytes
  simp only [step, fetch_of_onWord hon, hbytes]

end Step

/-! ## Missing features -/

/-- An instruction is UNDEFINED exactly when a feature its form needs is missing (R57, R103). -/
theorem exec_undefined_iff (i : Instr) (s : State) :
    (∃ pc word, exec i s = .fault (.undefined pc word)) ↔ ¬ HasFeatures s.cfg (formSize i) := by
  simp only [exec_eq_usmop4a, usmop4a_eq_fault, ← implemented_iff]
  simp

/-! ## The rows by match and mask -/

theorem matchAndMask_eq_map :
    matchAndMask = opcodeTable.map fun r => (r.matchBits, r.mask) :=
  rfl

/-- Rows 1 to 4 are the 32-bit forms (R58). -/
theorem formSize_read_of_mem_take {r : OpcodeRow} (hr : r ∈ opcodeTable.take 4) (w : Word) :
    formSize (r.read w) = .e32 := by
  revert r
  simp [opcodeTable, formSize]

/-- Rows 5 to 8 are the 64-bit forms (R58). -/
theorem formSize_read_of_mem_drop {r : OpcodeRow} (hr : r ∈ opcodeTable.drop 4) (w : Word) :
    formSize (r.read w) = .e64 := by
  revert r
  simp [opcodeTable, formSize]

/-- On a word of a row, a step is UNDEFINED exactly when a feature the row needs is missing. -/
theorem step_undefined_iff {s : State} {w : Word} {r : OpcodeRow} (hon : s.OnWord w)
    (hr : r ∈ opcodeTable) (h : w &&& r.mask = r.matchBits) :
    (∃ pc word, step s = .fault (.undefined pc word)) ↔
      ¬ HasFeatures s.cfg (formSize (r.read w)) := by
  have hdecode := decodeWord_of_hits hr ((hits_eq_true r w).mpr h)
  rw [step_of_decodeWord_ok hon hdecode, exec_undefined_iff]

/-! ## The statements -/

/-- Settles O9: decoding refuses the word by name, and so does the step. -/
theorem wordOutsideTableRefused : Obligations.WordOutsideTableRefused := by
  intro s w hon hnone
  refine step_of_decodeWord_error hon (decodeWord_of_not_hits fun r hr hhit => ?_)
  rw [matchAndMask_eq_map] at hnone
  exact hnone _ (List.mem_map_of_mem hr) ((hits_eq_true r w).mp hhit)

/-- Settles O39: the word decodes to a form of its row's element size, and that size says which
features are needed. -/
theorem missingFeatureUndefined : Obligations.MissingFeatureUndefined := by
  intro s w hon
  rw [matchAndMask_eq_map, ← List.map_take, ← List.map_drop]
  constructor
  · rintro ⟨_, hrow, hmatch⟩
    obtain ⟨r, hr, rfl⟩ := List.mem_map.mp hrow
    rw [step_undefined_iff hon (List.mem_of_mem_take hr) hmatch, formSize_read_of_mem_take hr]
    simp [HasFeatures]
  · rintro ⟨_, hrow, hmatch⟩
    obtain ⟨r, hr, rfl⟩ := List.mem_map.mp hrow
    rw [step_undefined_iff hon (List.mem_of_mem_drop hr) hmatch, formSize_read_of_mem_drop hr]
    simp [HasFeatures, imp_iff_not_or]

end Sys2Proof.Machine
end

section
/-! How many words decode: the words of a row are its match bits with any values in the three fields
(30_encoding.md section 4, R61). -/

namespace Sys2Proof

/-! ## The bits of the fields -/

/-- The bits of a word that the three fields take, `ZAda` being `t` bits wide (R51, R52). -/
def fieldBits (t : Nat) : Word := (BitVec.allOnes t).setWidth 32 ||| 0xE01C0

theorem getLsbD_fieldBits (t : Nat) {j : Nat} (hj : j < 32) : (fieldBits t).getLsbD j =
    decide (j < t ∨ 6 ≤ j ∧ j < 9 ∨ 17 ≤ j ∧ j < 20) := by
  have hregisters : ∀ j < 32, (0xE01C0 : Word).getLsbD j =
      decide (6 ≤ j ∧ j < 9 ∨ 17 ≤ j ∧ j < 20) := by decide
  rw [fieldBits, BitVec.getLsbD_or, hregisters j hj, BitVec.getLsbD_setWidth,
    BitVec.getLsbD_allOnes, decide_eq_true hj, Bool.true_and, ← Bool.decide_or]

/-- The values of the three fields: the tile's number and the two registers. -/
def fieldsOf (t : Nat) (w : Word) : Nat × Fin 32 × Fin 32 :=
  ((w.extractLsb' 0 t).toNat, firstRegister w, secondRegister w)

/-- All the values the fields can have (R54). -/
def fieldValues (t : Nat) : Finset (Nat × Fin 32 × Fin 32) :=
  Finset.range (2 ^ t) ×ˢ Finset.univ.filter (firstRegisterOk · = true) ×ˢ
    Finset.univ.filter (secondRegisterOk · = true)

theorem mem_fieldValues {t da : Nat} {n m : Fin 32} : (da, n, m) ∈ fieldValues t ↔
    da < 2 ^ t ∧ (n.val % 2 = 0 ∧ n.val < 16) ∧ m.val % 2 = 0 ∧ 16 ≤ m.val := by
  simp [fieldValues, firstRegisterOk, secondRegisterOk]

theorem card_fieldValues (t : Nat) : (fieldValues t).card = 2 ^ t * 64 := by
  have hfirst : (Finset.univ.filter (firstRegisterOk · = true)).card = 8 := by decide
  have hsecond : (Finset.univ.filter (secondRegisterOk · = true)).card = 8 := by decide
  rw [fieldValues, Finset.card_product, Finset.card_product, Finset.card_range, hfirst, hsecond]

/-- Every word has values in its fields: none is reserved. -/
theorem fieldsOf_mem (t : Nat) (w : Word) : fieldsOf t w ∈ fieldValues t := by
  have hn := (fieldZn w).isLt
  have hm := (fieldZm w).isLt
  refine mem_fieldValues.mpr ⟨(w.extractLsb' 0 t).isLt, ?_, ?_⟩
  · rw [firstRegister_val]; omega
  · rw [secondRegister_val]; omega

/-! ## Putting fields in place -/

section Encode
variable {matchBits : Word} {t da : Nat} {n m : Fin 32}

/-- Match bits that leave the fields clear are 0 on every bit of a field. -/
theorem getLsbD_matchBits_of_field (hclear : matchBits &&& fieldBits t = 0) {j : Nat} (hj : j < 32)
    (hfield : j < t ∨ 6 ≤ j ∧ j < 9 ∨ 17 ≤ j ∧ j < 20) : matchBits.getLsbD j = false := by
  have hbit := congrArg (BitVec.getLsbD · j) hclear
  simpa only [BitVec.getLsbD_and, getLsbD_fieldBits t hj, decide_eq_true hfield, Bool.and_true,
    BitVec.ofNat_eq_ofNat, BitVec.getLsbD_zero] using hbit

theorem testBit_eq_false_of_lt_of_le {x p i : Nat} (hx : x < 2 ^ p) (hi : p ≤ i) :
    x.testBit i = false :=
  Nat.testBit_lt_two_pow (hx.trans_le (Nat.pow_le_pow_right two_pos hi))

/-- Each bit of an encoded word is a bit of one field, or the row's match bit. -/
theorem getLsbD_encodeFields (ht : t ≤ 6) (hclear : matchBits &&& fieldBits t = 0)
    (hvalues : (da, n, m) ∈ fieldValues t) {j : Nat} (hj : j < 32) :
    (encodeFields matchBits da n m).getLsbD j =
      if j < t then da.testBit j
      else if 6 ≤ j ∧ j < 9 then (n.val / 2).testBit (j - 6)
      else if 17 ≤ j ∧ j < 20 then ((m.val - 16) / 2).testBit (j - 17)
      else matchBits.getLsbD j := by
  obtain ⟨hda, ⟨-, hn⟩, -, hm⟩ := mem_fieldValues.mp hvalues
  have hor : (encodeFields matchBits da n m).getLsbD j =
      (matchBits.getLsbD j || da.testBit j || !decide (j < 6) && (n.val / 2).testBit (j - 6) ||
        !decide (j < 17) && ((m.val - 16) / 2).testBit (j - 17)) := by
    have h6 : j - 6 < 32 := by omega
    have h17 : j - 17 < 32 := by omega
    simp only [encodeFields, BitVec.getLsbD_or, BitVec.getLsbD_shiftLeft, BitVec.getLsbD_ofNat,
      decide_eq_true hj, decide_eq_true h6, decide_eq_true h17, Bool.true_and]
  have hmatch := getLsbD_matchBits_of_field hclear hj
  have htile : t ≤ j → da.testBit j = false := testBit_eq_false_of_lt_of_le hda
  have hfirst : 3 ≤ j - 6 → (n.val / 2).testBit (j - 6) = false :=
    testBit_eq_false_of_lt_of_le (by omega)
  have hsecond : 3 ≤ j - 17 → ((m.val - 16) / 2).testBit (j - 17) = false :=
    testBit_eq_false_of_lt_of_le (by omega)
  rw [hor]
  split_ifs with hjt hjn hjm
  · have h6 : j < 6 := by omega
    have h17 : j < 17 := by omega
    simp [hmatch (.inl hjt), h6, h17]
  · have h6 : ¬ j < 6 := by omega
    have h17 : j < 17 := by omega
    simp [hmatch (.inr (.inl hjn)), htile (by omega), h6, h17]
  · have h17 : ¬ j < 17 := by omega
    simp [hmatch (.inr (.inr hjm)), htile (by omega), hfirst (by omega), h17]
  · have h6 : j < 6 ∨ 3 ≤ j - 6 := by omega
    have h17 : j < 17 ∨ 3 ≤ j - 17 := by omega
    obtain h6 | h6 := h6 <;> obtain h17 | h17 := h17 <;>
      simp [htile (by omega), h6, h17, hfirst, hsecond]

/-- A word that keeps a row's fixed bits is its match bits with the word's fields put in place. -/
theorem encodeFields_fieldsOf (ht : t ≤ 6) (hclear : matchBits &&& fieldBits t = 0) (w : Word)
    (h : w &&& ~~~fieldBits t = matchBits) :
    encodeFields matchBits (w.extractLsb' 0 t).toNat (firstRegister w) (secondRegister w) = w := by
  apply BitVec.eq_of_getLsbD_eq
  intro j hj
  have hfirst : (firstRegister w).val / 2 = (fieldZn w).toNat := by rw [firstRegister_val]; omega
  have hsecond : ((secondRegister w).val - 16) / 2 = (fieldZm w).toNat := by
    rw [secondRegister_val]; omega
  rw [getLsbD_encodeFields ht hclear (fieldsOf_mem t w) hj, hfirst, hsecond]
  simp only [BitVec.testBit_toNat, fieldZn, fieldZm, BitVec.getLsbD_extractLsb']
  split_ifs with hjt hjn hjm
  · simp [hjt]
  · have h6 : j - 6 < 3 ∧ 6 + (j - 6) = j := by omega
    simp [h6]
  · have h17 : j - 17 < 3 ∧ 17 + (j - 17) = j := by omega
    simp [h17]
  · rw [← h, BitVec.getLsbD_and, BitVec.getLsbD_not, getLsbD_fieldBits t hj]
    simp [hj, hjt, hjn, hjm]

/-- An encoded word keeps the row's fixed bits. -/
theorem encodeFields_and_not_fieldBits (ht : t ≤ 6) (hclear : matchBits &&& fieldBits t = 0)
    (hvalues : (da, n, m) ∈ fieldValues t) :
    encodeFields matchBits da n m &&& ~~~fieldBits t = matchBits := by
  apply BitVec.eq_of_getLsbD_eq
  intro j hj
  rw [BitVec.getLsbD_and, BitVec.getLsbD_not, getLsbD_fieldBits t hj]
  by_cases hfield : j < t ∨ 6 ≤ j ∧ j < 9 ∨ 17 ≤ j ∧ j < 20
  · rw [getLsbD_matchBits_of_field hclear hj hfield, decide_eq_true hfield]
    simp
  · obtain ⟨hjt, hjn, hjm⟩ : ¬ j < t ∧ ¬ (6 ≤ j ∧ j < 9) ∧ ¬ (17 ≤ j ∧ j < 20) := by
      simpa only [not_or] using hfield
    rw [getLsbD_encodeFields ht hclear hvalues hj, if_neg hjt, if_neg hjn, if_neg hjm,
      decide_eq_false hfield]
    simp [hj]

/-- The fields of an encoded word are those that were put in place. -/
theorem fieldsOf_encodeFields (ht : t ≤ 6) (hclear : matchBits &&& fieldBits t = 0)
    (hvalues : (da, n, m) ∈ fieldValues t) :
    fieldsOf t (encodeFields matchBits da n m) = (da, n, m) := by
  obtain ⟨hda, hn, hm⟩ := mem_fieldValues.mp hvalues
  have hbit {j : Nat} := getLsbD_encodeFields (j := j) ht hclear hvalues
  have htile : (encodeFields matchBits da n m).extractLsb' 0 t = BitVec.ofNat t da := by
    apply BitVec.eq_of_getLsbD_eq
    intro j hj
    rw [BitVec.getLsbD_extractLsb', BitVec.getLsbD_ofNat, Nat.zero_add, hbit (by omega), if_pos hj]
  have hfirst : fieldZn (encodeFields matchBits da n m) = BitVec.ofNat 3 (n.val / 2) := by
    apply BitVec.eq_of_getLsbD_eq
    intro j hj
    rw [fieldZn, BitVec.getLsbD_extractLsb', BitVec.getLsbD_ofNat, hbit (by omega),
      if_neg (by omega), if_pos (by omega), Nat.add_sub_cancel_left]
  have hsecond : fieldZm (encodeFields matchBits da n m) = BitVec.ofNat 3 ((m.val - 16) / 2) := by
    apply BitVec.eq_of_getLsbD_eq
    intro j hj
    rw [fieldZm, BitVec.getLsbD_extractLsb', BitVec.getLsbD_ofNat, hbit (by omega),
      if_neg (by omega), if_neg (by omega), if_pos (by omega), Nat.add_sub_cancel_left]
  refine Prod.ext ?_ (Prod.ext (Fin.ext ?_) (Fin.ext ?_))
  · rw [fieldsOf, htile, BitVec.toNat_ofNat, Nat.mod_eq_of_lt hda]
  · simp only [fieldsOf, firstRegister_val, hfirst, BitVec.toNat_ofNat]
    omega
  · simp only [fieldsOf, secondRegister_val, hsecond, BitVec.toNat_ofNat]
    omega

end Encode

/-! ## The words of a row -/

/-- The words with given match bits and any values in the fields. -/
def rowWords (t : Nat) (matchBits : Word) : Finset Word :=
  (fieldValues t).image fun x => encodeFields matchBits x.1 x.2.1 x.2.2

section RowWords
variable {matchBits : Word} {t : Nat} (ht : t ≤ 6) (hclear : matchBits &&& fieldBits t = 0)
include ht hclear

theorem mem_rowWords (w : Word) : w ∈ rowWords t matchBits ↔ w &&& ~~~fieldBits t = matchBits := by
  constructor
  · intro hw
    obtain ⟨⟨da, n, m⟩, hvalues, rfl⟩ := Finset.mem_image.mp hw
    exact encodeFields_and_not_fieldBits ht hclear hvalues
  · intro h
    exact Finset.mem_image.mpr ⟨fieldsOf t w, fieldsOf_mem t w, encodeFields_fieldsOf ht hclear w h⟩

theorem card_rowWords : (rowWords t matchBits).card = 2 ^ t * 64 := by
  have hinverse : Set.LeftInvOn (fieldsOf t) (fun x => encodeFields matchBits x.1 x.2.1 x.2.2)
      (fieldValues t) := fun _ hx => fieldsOf_encodeFields ht hclear hx
  rw [rowWords, Finset.card_image_of_injOn hinverse.injOn, card_fieldValues]

end RowWords

/-- The width of `ZAda` in a row of the opcode map: 2 bits in rows 1 to 4, 3 bits in rows 5 to 8
(R51, R52). -/
def tileWidth (k : Nat) : Nat := if k < 4 then 2 else 3

theorem tileWidth_le (k : Nat) : tileWidth k ≤ 6 := by
  unfold tileWidth; split <;> decide

/-- A row fixes all bits but those of its fields, and its match bits are 0 there (R58). -/
theorem opcodeTable_fields : ∀ k : Fin opcodeTable.length,
    opcodeTable[k].mask = ~~~fieldBits (tileWidth k) ∧
      opcodeTable[k].matchBits &&& fieldBits (tileWidth k) = 0 := by
  decide

/-- The words of a row of the opcode map. -/
def wordsOfRow (k : Fin opcodeTable.length) : Finset Word :=
  rowWords (tileWidth k) opcodeTable[k].matchBits

theorem mem_wordsOfRow (k : Fin opcodeTable.length) (w : Word) :
    w ∈ wordsOfRow k ↔ opcodeTable[k].hits w = true := by
  obtain ⟨hmask, hclear⟩ := opcodeTable_fields k
  rw [wordsOfRow, mem_rowWords (tileWidth_le k) hclear, hits_eq_true, hmask]

theorem card_wordsOfRow (k : Fin opcodeTable.length) :
    (wordsOfRow k).card = if k.val < 4 then 256 else 512 := by
  rw [wordsOfRow, card_rowWords (tileWidth_le k) (opcodeTable_fields k).2, tileWidth]
  split <;> rfl

/-- The words of two rows are disjoint (R59). -/
theorem wordsOfRow_disjoint :
    ((Finset.univ : Finset (Fin opcodeTable.length)) : Set _).PairwiseDisjoint wordsOfRow := by
  intro j _ k _ hne
  refine Finset.disjoint_left.mpr fun w hj hk => hne (Fin.ext ?_)
  exact rowIndex_unique (List.getElem?_eq_getElem j.isLt) (List.getElem?_eq_getElem k.isLt)
    ((mem_wordsOfRow j w).mp hj) ((mem_wordsOfRow k w).mp hk)

/-- The words that decode are those of all rows together. -/
theorem mem_biUnion_wordsOfRow (w : Word) :
    w ∈ Finset.univ.biUnion wordsOfRow ↔ ∃ i, decodeWord w = .ok i := by
  simp only [Finset.mem_biUnion, Finset.mem_univ, true_and, mem_wordsOfRow, decodeWord_eq_ok_iff]
  constructor
  · rintro ⟨k, hhit⟩
    exact ⟨_, _, List.getElem_mem k.isLt, hhit, rfl⟩
  · rintro ⟨_, r, hr, hhit, -⟩
    obtain ⟨k, hlt, rfl⟩ := List.mem_iff_getElem.mp hr
    exact ⟨⟨k, hlt⟩, hhit⟩

theorem card_biUnion_wordsOfRow : (Finset.univ.biUnion wordsOfRow).card = 3072 := by
  rw [Finset.card_biUnion wordsOfRow_disjoint, Finset.sum_congr rfl fun k _ => card_wordsOfRow k]
  decide

/-! ## The statement -/

/-- Settles O7: a row's words are the values of its fields put in place, each once; rows share
none. -/
theorem decodableWordCount : Obligations.DecodableWordCount := by
  refine ⟨fun k hk => ⟨(wordsOfRow ⟨k, hk⟩).toList, Finset.nodup_toList _, ?_, fun w => ?_⟩,
    (Finset.univ.biUnion wordsOfRow).toList, Finset.nodup_toList _, ?_, fun w => ?_⟩
  · rw [Finset.length_toList, card_wordsOfRow]
  · rw [Finset.mem_toList, mem_wordsOfRow]
    constructor
    · intro hhit
      exact ⟨_, List.getElem?_eq_getElem hk, hhit, decodeWord_of_hits (List.getElem_mem hk) hhit⟩
    · rintro ⟨r, hr, hhit, -⟩
      obtain ⟨_, rfl⟩ := List.getElem?_eq_some_iff.mp hr
      exact hhit
  · rw [Finset.length_toList, card_biUnion_wordsOfRow]
  · rw [Finset.mem_toList, mem_biUnion_wordsOfRow]

end Sys2Proof
end

section
/-! What a completed USMOP4A leaves in the destination tile, and what follows from it
(40_usmop4a.md sections 1 and 2). -/

namespace Sys2Proof.Machine

open Sys2Proof

/-! ## The exact dot product (R72, R74) -/

section Dot
variable {l : Nat} (w : Nat) (a b : BitVec l) (R C : Nat)

theorem containerDot_eq_sum :
    containerDot w a b R C = ∑ k ∈ Finset.range 4, elemProduct w a b R C k := by
  simp only [containerDot, Finset.sum_range_succ, Finset.sum_range_zero, zero_add]

@[simp] theorem elem_zero (i : Nat) : elem 0#l i w = 0#w := by
  simp [elem]

@[simp] theorem containerDot_zero_left : containerDot w 0 b R C = 0 := by
  simp [containerDot, elemProduct]

@[simp] theorem containerDot_zero_right : containerDot w a 0 R C = 0 := by
  simp [containerDot, elemProduct]

/-- A product of an unsigned and a signed `w`-bit value lies between those of the extreme values. -/
theorem elemProduct_bounds (k : Nat) :
    (2 ^ w - 1) * -2 ^ (w - 1) ≤ elemProduct w a b R C k ∧
      elemProduct w a b R C k ≤ (2 ^ w - 1) * (2 ^ (w - 1) - 1) := by
  have hx : ((elem a (4 * R + k) w).toNat : Int) ≤ 2 ^ w - 1 :=
    Int.le_sub_one_of_lt (mod_cast (elem a (4 * R + k) w).isLt)
  have hylow : -2 ^ (w - 1) ≤ (elem b (4 * C + k) w).toInt := BitVec.le_toInt _
  have hyhigh : (elem b (4 * C + k) w).toInt ≤ 2 ^ (w - 1) - 1 :=
    Int.le_sub_one_of_lt BitVec.toInt_lt
  have hhalf : (0 : Int) < 2 ^ (w - 1) := by positivity
  have hx0 := Int.natCast_nonneg (elem a (4 * R + k) w).toNat
  constructor
  · calc (2 ^ w - 1) * -2 ^ (w - 1) ≤ ((elem a (4 * R + k) w).toNat : Int) * -2 ^ (w - 1) :=
          mul_le_mul_of_nonpos_right hx (by omega)
      _ ≤ _ := mul_le_mul_of_nonneg_left hylow hx0
  · calc elemProduct w a b R C k ≤ ((elem a (4 * R + k) w).toNat : Int) * (2 ^ (w - 1) - 1) :=
          mul_le_mul_of_nonneg_left hyhigh hx0
      _ ≤ _ := mul_le_mul_of_nonneg_right hx (Int.le_sub_one_of_lt hhalf)

/-- The dot product lies between four times the extreme products. -/
theorem containerDot_bounds :
    4 * ((2 ^ w - 1) * -2 ^ (w - 1)) ≤ containerDot w a b R C ∧
      containerDot w a b R C ≤ 4 * ((2 ^ w - 1) * (2 ^ (w - 1) - 1)) := by
  have hproduct := elemProduct_bounds w a b R C
  obtain ⟨h0, h0'⟩ := hproduct 0
  obtain ⟨h1, h1'⟩ := hproduct 1
  obtain ⟨h2, h2'⟩ := hproduct 2
  obtain ⟨h3, h3'⟩ := hproduct 3
  constructor <;> rw [containerDot] <;> linarith

end Dot

/-! ## The registers a source names (R72, R73) -/

section Registers

/-- The register a half of the tile uses is one of the source's. -/
theorem exists_mem_registerFor {source : List Nat} (h : source ≠ []) (half : Nat) :
    ∃ r ∈ source, registerFor source half = Fin.ofNat 32 r := by
  refine ⟨_, ?_, rfl⟩
  obtain hlt | hge := Nat.lt_or_ge half source.length
  · rw [List.getD_eq_getElem _ _ hlt]
    exact List.getElem_mem hlt
  · rw [List.getD_eq_default _ _ hge]
    cases source with
    | nil => exact absurd rfl h
    | cons r rest => exact List.mem_cons_self

theorem firstSource_ne_nil (i : Instr) : firstSource i ≠ [] := by
  cases i <;> exact List.cons_ne_nil _ _

theorem secondSource_ne_nil (i : Instr) : secondSource i ≠ [] := by
  cases i <;> exact List.cons_ne_nil _ _

@[simp] theorem registerFor_single (n : Fin 32) (half : Nat) : registerFor [n.val] half = n := by
  cases half <;> exact Fin.ofNat_val_eq_self n

/-- A half of the tile uses the first register of a pair or the one after it. -/
theorem registerFor_pair (n : Fin 32) {half : Nat} (h : half < 2) :
    registerFor [n.val, n.val + 1] half = if half = 0 then n else n + 1 := by
  interval_cases half
  · exact Fin.ofNat_val_eq_self n
  · rfl

@[simp] theorem sourceRegister_one (n : Fin 32) (half : Nat) : sourceRegister n 1 half = n := by
  simp [sourceRegister]

theorem sourceRegister_two (n : Fin 32) {half : Nat} (h : half < 2) :
    sourceRegister n 2 half = if half = 0 then n else n + 1 := by
  interval_cases half
  · simp [sourceRegister]
  · rfl

/-- The first source's register that the meaning computes is the one that the source names. -/
theorem sourceRegister_eq_registerFor_firstSource (i : Instr) {half : Nat} (h : half < 2) :
    sourceRegister (Fin.ofNat 32 (pageVars i).n) (pageVars i).nreg half =
      registerFor (firstSource i) half := by
  cases i <;> simp [pageVars, firstSource, sourceRegister_two _ h, registerFor_pair _ h]

/-- The second source's register that the meaning computes is the one that the source names. -/
theorem sourceRegister_eq_registerFor_secondSource (i : Instr) {half : Nat} (h : half < 2) :
    sourceRegister (Fin.ofNat 32 (pageVars i).m) (pageVars i).mreg half =
      registerFor (secondSource i) half := by
  cases i <;> simp [pageVars, secondSource, sourceRegister_two _ h, registerFor_pair _ h]

end Registers

/-! ## The halves of a tile -/

section Halves
variable {vl : VecLen} {es : ESize} {x : Nat}

theorem side_eq_div (vl : VecLen) (es : ESize) : side vl es = vl.bits / es.bits := by
  cases vl <;> cases es <;> rfl

theorem dim_e32 (vl : VecLen) : dim vl .e32 = vl.bits / 64 := Nat.div_div_eq_div_mul _ _ _

theorem dim_e64 (vl : VecLen) : dim vl .e64 = vl.bits / 128 := Nat.div_div_eq_div_mul _ _ _

/-- A row or a column is in one of two halves. -/
theorem half_lt_two (hx : x < side vl es) : x / dim vl es < 2 :=
  Nat.div_lt_of_lt_mul (by rwa [Nat.mul_comm])

/-- A row or a column picks the first register of a pair in its first half, else the second. -/
theorem registerFor_pair_of_lt_side (n : Fin 32) {d : Nat} (hd : dim vl es = d)
    (hx : x < side vl es) :
    registerFor [n.val, n.val + 1] (x / dim vl es) = if x < d then n else n + 1 := by
  rw [registerFor_pair n (half_lt_two hx), ← hd]
  simp only [Nat.div_eq_zero_iff_lt (dim_pos vl es)]

end Halves

/-! ## Writing a tile -/

theorem esize_bits_pos (es : ESize) : 0 < es.bits := by cases es <;> decide

/-- A packed vector depends only on the elements it holds. -/
theorem packElems_congr {w out : Nat} {f g : Nat → BitVec w} {count : Nat}
    (h : ∀ i < count, f i = g i) : packElems w out f count = packElems w out g count := by
  induction count with
  | zero => rfl
  | succ k ih =>
    rw [packElems, packElems, h k k.lt_succ_self, ih fun i hi => h i (Nat.lt_succ_of_lt hi)]

/-- A row packed from the elements of a vector is that vector. -/
theorem packElems_elem (vl : VecLen) (es : ESize) (x : BitVec vl.bits) :
    packElems es.bits vl.bits (fun C => elem x C es.bits) (side vl es) = x :=
  eq_of_elem_eq es.bits (side vl es) (esize_bits_pos es) (side_mul_bits vl es) _ _ fun C hC =>
    elem_packElems _ _ _ _ C hC (side_mul_bits vl es).le

section WriteTile
variable {vl : VecLen} (v : VectorState vl) (es : ESize) (t : Nat)

/-- The vectors of the ZA array are the rows of its tiles. -/
theorem div_tileStride_lt_side {i : Nat} (hi : i < vl.zaVectors) : i / tileStride es < side vl es :=
  Nat.div_lt_of_lt_mul (by rwa [Nat.mul_comm, side_mul_tileStride])

/-- What a tile's write leaves depends only on the elements of the tile. -/
theorem writeTile_congr {f g : Nat → Nat → BitVec es.bits}
    (h : ∀ R C, R < side vl es → C < side vl es → f R C = g R C) :
    v.writeTile es t f = v.writeTile es t g := by
  refine VectorState.eq_of_readZa_eq rfl fun i hi => ?_
  rw [readZa_writeTile v es t f i hi, readZa_writeTile v es t g i hi,
    packElems_congr fun C hC => h _ C (div_tileStride_lt_side es hi) hC]

/-- Writing the elements that a tile holds changes nothing. -/
theorem writeTile_tileElem : v.writeTile es t (v.tileElem es t) = v := by
  refine VectorState.eq_of_readZa_eq rfl fun i hi => ?_
  rw [readZa_writeTile v es t _ i hi]
  split
  · rename_i hrow
    have hindex : t + i / tileStride es * tileStride es = i := by
      rw [← hrow, Nat.mod_add_div']
    calc packElems es.bits vl.bits (v.tileElem es t (i / tileStride es)) (side vl es)
        = v.readZa (t + i / tileStride es * tileStride es) := packElems_elem vl es _
      _ = v.readZa i := by rw [hindex]
  · rfl

end WriteTile

/-! ## The destination tile of a completed execution -/

/-- What an execution adds to an element of its destination tile: the dot product of the registers
that the element's quarter uses (R72, R73). -/
def VectorState.dotFor {vl : VecLen} (v : VectorState vl) (i : Instr) (R C : Nat) : Int :=
  containerDot (sourceBits (formSize i))
    (v.readZ (registerFor (firstSource i) (C / dim vl (formSize i))))
    (v.readZ (registerFor (secondSource i) (R / dim vl (formSize i)))) R C

/-- The new element is the old one plus the exact dot product, modulo 2^esize (R72). -/
theorem newElem_eq_tileElem_add {vl : VecLen} (v : VectorState vl) (es : ESize)
    (nreg mreg da : Nat) (n m : Fin 32) (R C : Nat) :
    v.newElem es nreg mreg da n m R C = v.tileElem es da R C + BitVec.ofInt _
      (containerDot (sourceBits es) (v.readZ (sourceRegister n nreg (C / dim vl es)))
        (v.readZ (sourceRegister m mreg (R / dim vl es))) R C) := by
  rw [VectorState.newElem, BitVec.ofInt_add, BitVec.ofInt_natCast, BitVec.ofNat_toNat,
    BitVec.setWidth_eq]

section Effect
variable {vl : VecLen} (v : VectorState vl) (i : Instr) {R C : Nat}

/-- An execution adds the same after itself: it changes no source (R79 (g)). -/
@[simp] theorem dotFor_accumulateFor (j : Instr) (R C : Nat) :
    (v.accumulateFor j).dotFor i R C = v.dotFor i R C := rfl

/-- What an execution adds depends only on the registers its sources name. -/
theorem dotFor_congr {u v : VectorState vl} {i : Instr}
    (h : ∀ r ∈ firstSource i ++ secondSource i,
      u.readZ (Fin.ofNat 32 r) = v.readZ (Fin.ofNat 32 r)) (R C : Nat) :
    u.dotFor i R C = v.dotFor i R C := by
  obtain ⟨r, hr, hfirst⟩ :=
    exists_mem_registerFor (firstSource_ne_nil i) (C / dim vl (formSize i))
  obtain ⟨r', hr', hsecond⟩ :=
    exists_mem_registerFor (secondSource_ne_nil i) (R / dim vl (formSize i))
  rw [VectorState.dotFor, VectorState.dotFor, hfirst, hsecond, h r (List.mem_append_left _ hr),
    h r' (List.mem_append_right _ hr')]

/-- A first source of zeros adds nothing (R79 (a)). -/
theorem dotFor_of_firstSource_zero (h : ∀ r ∈ firstSource i, v.readZ (Fin.ofNat 32 r) = 0)
    (R C : Nat) : v.dotFor i R C = 0 := by
  obtain ⟨r, hr, hfirst⟩ :=
    exists_mem_registerFor (firstSource_ne_nil i) (C / dim vl (formSize i))
  rw [VectorState.dotFor, hfirst, h r hr]
  exact containerDot_zero_left _ _ _ _

/-- A second source of zeros adds nothing (R79 (a)). -/
theorem dotFor_of_secondSource_zero (h : ∀ r ∈ secondSource i, v.readZ (Fin.ofNat 32 r) = 0)
    (R C : Nat) : v.dotFor i R C = 0 := by
  obtain ⟨r, hr, hsecond⟩ :=
    exists_mem_registerFor (secondSource_ne_nil i) (R / dim vl (formSize i))
  rw [VectorState.dotFor, hsecond, h r hr]
  exact containerDot_zero_right _ _ _ _

/-- The new element is the old one plus what the instruction adds. -/
theorem newElem_eq_add_dotFor (hR : R < side vl (formSize i)) (hC : C < side vl (formSize i)) :
    v.newElem (formSize i) (pageVars i).nreg (pageVars i).mreg (formTile i)
        (Fin.ofNat 32 (pageVars i).n) (Fin.ofNat 32 (pageVars i).m) R C =
      v.tileElem (formSize i) (formTile i) R C + BitVec.ofInt _ (v.dotFor i R C) := by
  rw [newElem_eq_tileElem_add, sourceRegister_eq_registerFor_firstSource i (half_lt_two hC),
    sourceRegister_eq_registerFor_secondSource i (half_lt_two hR), VectorState.dotFor]

/-- Every element of the destination tile after an execution (R72). -/
theorem tileElem_accumulateFor (hR : R < side vl (formSize i)) (hC : C < side vl (formSize i)) :
    (v.accumulateFor i).tileElem (formSize i) (formTile i) R C =
      v.tileElem (formSize i) (formTile i) R C + BitVec.ofInt _ (v.dotFor i R C) := by
  rw [VectorState.accumulateFor, tileElem_accumulate _ _ _ _ _ _ _ _ _ (formTile_lt i) hR hC,
    newElem_eq_add_dotFor v i hR hC]

/-- By how much an execution changes an element of its destination tile. -/
theorem tileElem_accumulateFor_sub (hR : R < side vl (formSize i)) (hC : C < side vl (formSize i)) :
    (v.accumulateFor i).tileElem (formSize i) (formTile i) R C -
        v.tileElem (formSize i) (formTile i) R C = BitVec.ofInt _ (v.dotFor i R C) := by
  rw [tileElem_accumulateFor v i hR hC, BitVec.add_comm, BitVec.add_sub_cancel]

/-- A new element depends only on the registers that the sources name and on the old element. -/
theorem tileElem_accumulateFor_congr {u v : VectorState vl} {i : Instr}
    (hregisters : ∀ r ∈ firstSource i ++ secondSource i,
      u.readZ (Fin.ofNat 32 r) = v.readZ (Fin.ofNat 32 r))
    (hold : u.tileElem (formSize i) (formTile i) R C = v.tileElem (formSize i) (formTile i) R C)
    (hR : R < side vl (formSize i)) (hC : C < side vl (formSize i)) :
    (u.accumulateFor i).tileElem (formSize i) (formTile i) R C =
      (v.accumulateFor i).tileElem (formSize i) (formTile i) R C := by
  rw [tileElem_accumulateFor u i hR hC, tileElem_accumulateFor v i hR hC, hold,
    dotFor_congr hregisters]

/-- An execution that adds nothing leaves the vector registers as they were. -/
theorem accumulateFor_of_dotFor_zero (h : ∀ R C, v.dotFor i R C = 0) : v.accumulateFor i = v := by
  refine (writeTile_congr v _ _ fun R C hR hC => ?_).trans (writeTile_tileElem v _ (formTile i))
  have hzero : BitVec.ofInt (formSize i).bits 0 = 0#_ := BitVec.ofInt_ofNat _ 0
  rw [newElem_eq_add_dotFor v i hR hC, h R C, hzero, BitVec.add_zero]

end Effect

/-- A ready instruction completes with the tile of R72, over the registers that the columns and the
rows pick; the wrap is decision D15. -/
theorem exec_adds_products {s : State} {i : Instr} {es : ESize} (hsize : formSize i = es)
    (hready : s.Ready es) {a b : Nat → Fin 32}
    (ha : ∀ C < side s.cfg.vl es, registerFor (firstSource i) (C / dim s.cfg.vl es) = a C)
    (hb : ∀ R < side s.cfg.vl es, registerFor (secondSource i) (R / dim s.cfg.vl es) = b R) :
    ∃ v : VectorState s.cfg.vl, exec i s = .next { s with vec := v, pc := s.pc + 4 } ∧
      ∀ R C, R < s.cfg.vl.bits / es.bits → C < s.cfg.vl.bits / es.bits →
        ((v.tileElem es (formTile i) R C).toNat : Int) =
          ((s.vec.tileElem es (formTile i) R C).toNat + ∑ k ∈ Finset.range 4,
            elemProduct (sourceBits es) (s.vec.readZ (a C)) (s.vec.readZ (b R)) R C k) %
          2 ^ es.bits := by
  subst hsize
  refine ⟨s.vec.accumulateFor i, exec_of_ready hready, fun R C hR hC => ?_⟩
  rw [← side_eq_div] at hR hC
  rw [tileElem_accumulateFor _ _ hR hC, VectorState.dotFor, ha C hC, hb R hR,
    ← containerDot_eq_sum, BitVec.toNat_add, BitVec.toNat_ofInt]
  push_cast
  rw [Int.toNat_of_nonneg (Int.emod_nonneg _ (by positivity)), Int.add_emod_emod]

section Forms
variable {s : State} {i : Instr} {a b : Nat → Fin 32}

/-- R72 for a 32-bit form. -/
theorem exec_adds_products_e32 (hsize : formSize i = .e32) (hready : s.Ready .e32)
    (ha : ∀ C < side s.cfg.vl .e32, registerFor (firstSource i) (C / dim s.cfg.vl .e32) = a C)
    (hb : ∀ R < side s.cfg.vl .e32, registerFor (secondSource i) (R / dim s.cfg.vl .e32) = b R) :
    ∃ v : VectorState s.cfg.vl, exec i s = .next { s with vec := v, pc := s.pc + 4 } ∧
      ∀ R C, R < s.cfg.vl.bits / 32 → C < s.cfg.vl.bits / 32 →
        ((v.tileElem .e32 (formTile i) R C).toNat : Int) =
          ((s.vec.tileElem .e32 (formTile i) R C).toNat + ∑ k ∈ Finset.range 4,
            ((elem (s.vec.readZ (a C)) (4 * R + k) 8).toNat : Int) *
              (elem (s.vec.readZ (b R)) (4 * C + k) 8).toInt) % 2 ^ 32 := by
  simpa only [ESize.bits, sourceBits, elemProduct, Nat.reduceDiv] using
    exec_adds_products hsize hready ha hb

/-- R72 for a 64-bit form. -/
theorem exec_adds_products_e64 (hsize : formSize i = .e64) (hready : s.Ready .e64)
    (ha : ∀ C < side s.cfg.vl .e64, registerFor (firstSource i) (C / dim s.cfg.vl .e64) = a C)
    (hb : ∀ R < side s.cfg.vl .e64, registerFor (secondSource i) (R / dim s.cfg.vl .e64) = b R) :
    ∃ v : VectorState s.cfg.vl, exec i s = .next { s with vec := v, pc := s.pc + 4 } ∧
      ∀ R C, R < s.cfg.vl.bits / 64 → C < s.cfg.vl.bits / 64 →
        ((v.tileElem .e64 (formTile i) R C).toNat : Int) =
          ((s.vec.tileElem .e64 (formTile i) R C).toNat + ∑ k ∈ Finset.range 4,
            ((elem (s.vec.readZ (a C)) (4 * R + k) 16).toNat : Int) *
              (elem (s.vec.readZ (b R)) (4 * C + k) 16).toInt) % 2 ^ 64 := by
  simpa only [ESize.bits, sourceBits, elemProduct, Nat.reduceDiv] using
    exec_adds_products hsize hready ha hb

end Forms

/-! ## Pairs of equal registers (R79 (f)) -/

section EqualPairs
variable {vl : VecLen} {v : VectorState vl}

/-- In a source of one register, or of a pair with equal values, each half of the tile uses the
first register's value. -/
theorem readZ_sourceRegister_of_equalPair {n : Fin 32} (h : v.readZ (n + 1) = v.readZ n)
    {count : Nat} (hcount : count = 1 ∨ count = 2) {half : Nat} (hhalf : half < 2) :
    v.readZ (sourceRegister n count half) = v.readZ n := by
  obtain rfl | rfl := hcount
  · rw [sourceRegister_one]
  · rw [sourceRegister_two n hhalf]
    split
    · rfl
    · exact h

variable {n m : Fin 32} (hn : v.readZ (n + 1) = v.readZ n) (hm : v.readZ (m + 1) = v.readZ m)
  {nreg mreg : Nat} (hnreg : nreg = 1 ∨ nreg = 2) (hmreg : mreg = 1 ∨ mreg = 2)
include hn hm hnreg hmreg

/-- With equal pairs every form leaves what the form on single vectors leaves. -/
theorem accumulate_of_equalPairs (es : ESize) (da : Nat) :
    v.accumulate es nreg mreg da n m = v.accumulate es 1 1 da n m := by
  refine writeTile_congr v es da fun R C hR hC => ?_
  rw [VectorState.newElem, VectorState.newElem, sourceRegister_one, sourceRegister_one,
    readZ_sourceRegister_of_equalPair hn hnreg (half_lt_two hC),
    readZ_sourceRegister_of_equalPair hm hmreg (half_lt_two hR)]

end EqualPairs

section EqualPairsOutcome
variable {s : State} {es : ESize} (hready : s.Ready es) {n m : Fin 32}
  (hn : s.vec.readZ (n + 1) = s.vec.readZ n) (hm : s.vec.readZ (m + 1) = s.vec.readZ m)
include hready hn hm

/-- With equal pairs the shared operation answers what it answers on single vectors. -/
theorem usmop4a_of_equalPairs {nreg mreg : Nat} (hnreg : nreg = 1 ∨ nreg = 2)
    (hmreg : mreg = 1 ∨ mreg = 2) (da : Nat) (word : Word) :
    usmop4a es nreg mreg da n m word s = .next (s.complete (s.vec.accumulate es 1 1 da n m)) := by
  rw [usmop4a_eq_next, implemented_iff, enableCheck_eq_none,
    accumulate_of_equalPairs hn hm hnreg hmreg]
  exact ⟨hready.1, hready.2, rfl⟩

/-- With equal pairs the four forms of a size answer one next state. -/
theorem usmop4a_forms_agree_of_equalPairs (da : Nat) (w12 w11 w21 w22 : Word) :
    ∃ t, usmop4a es 1 2 da n m w12 s = .next t ∧ usmop4a es 1 1 da n m w11 s = .next t ∧
      usmop4a es 2 1 da n m w21 s = .next t ∧ usmop4a es 2 2 da n m w22 s = .next t :=
  ⟨_, usmop4a_of_equalPairs hready hn hm (.inl rfl) (.inr rfl) da w12,
    usmop4a_of_equalPairs hready hn hm (.inl rfl) (.inl rfl) da w11,
    usmop4a_of_equalPairs hready hn hm (.inr rfl) (.inl rfl) da w21,
    usmop4a_of_equalPairs hready hn hm (.inr rfl) (.inr rfl) da w22⟩

end EqualPairsOutcome

/-! ## The statements -/

/-- Settles O18: every column uses the one first source, a row's half picks one of the second's
pair. -/
theorem singleAndMultiple32Completes : Obligations.SingleAndMultiple32Completes :=
  fun _ da n m _ hready => exec_adds_products_e32 (i := .usmop4aS12 da n m) rfl hready
    (fun _ _ => registerFor_single n _) (fun _ => registerFor_pair_of_lt_side m (dim_e32 _))

/-- Settles O19: each source is one register. -/
theorem single32Completes : Obligations.Single32Completes :=
  fun _ da n m _ hready => exec_adds_products_e32 (i := .usmop4aS11 da n m) rfl hready
    (fun _ _ => registerFor_single n _) (fun _ _ => registerFor_single m _)

/-- Settles O20: a column's half picks one of the first source's pair, every row uses the one second
source. -/
theorem multipleAndSingle32Completes : Obligations.MultipleAndSingle32Completes :=
  fun _ da n m _ hready => exec_adds_products_e32 (i := .usmop4aS21 da n m) rfl hready
    (fun _ => registerFor_pair_of_lt_side n (dim_e32 _)) (fun _ _ => registerFor_single m _)

/-- Settles O21: each source is a pair. -/
theorem multiple32Completes : Obligations.Multiple32Completes :=
  fun _ da n m _ hready => exec_adds_products_e32 (i := .usmop4aS22 da n m) rfl hready
    (fun _ => registerFor_pair_of_lt_side n (dim_e32 _))
    (fun _ => registerFor_pair_of_lt_side m (dim_e32 _))

/-- Settles O22: as O18, with 64-bit elements. -/
theorem singleAndMultiple64Completes : Obligations.SingleAndMultiple64Completes :=
  fun _ da n m _ hready => exec_adds_products_e64 (i := .usmop4aD12 da n m) rfl hready
    (fun _ _ => registerFor_single n _) (fun _ => registerFor_pair_of_lt_side m (dim_e64 _))

/-- Settles O23: as O19, with 64-bit elements. -/
theorem single64Completes : Obligations.Single64Completes :=
  fun _ da n m _ hready => exec_adds_products_e64 (i := .usmop4aD11 da n m) rfl hready
    (fun _ _ => registerFor_single n _) (fun _ _ => registerFor_single m _)

/-- Settles O24: as O20, with 64-bit elements. -/
theorem multipleAndSingle64Completes : Obligations.MultipleAndSingle64Completes :=
  fun _ da n m _ hready => exec_adds_products_e64 (i := .usmop4aD21 da n m) rfl hready
    (fun _ => registerFor_pair_of_lt_side n (dim_e64 _)) (fun _ _ => registerFor_single m _)

/-- Settles O25: as O21, with 64-bit elements. -/
theorem multiple64Completes : Obligations.Multiple64Completes :=
  fun _ da n m _ hready => exec_adds_products_e64 (i := .usmop4aD22 da n m) rfl hready
    (fun _ => registerFor_pair_of_lt_side n (dim_e64 _))
    (fun _ => registerFor_pair_of_lt_side m (dim_e64 _))

/-- Settles O27: the extreme products are 255 by -128 or 127, and 65535 by -32768 or 32767. -/
theorem dotProductRange : Obligations.DotProductRange := by
  intro vl a b R C
  have hbytes := containerDot_bounds 8 a b R C
  have hhalfwords := containerDot_bounds 16 a b R C
  norm_num at hbytes hhalfwords
  exact ⟨hbytes, hhalfwords⟩

/-- Settles O28: the new element is the exact sum brought into the element's width, which a sum that
fits is already in. -/
theorem signedSumWithoutOverflow : Obligations.SignedSumWithoutOverflow := by
  intro s i _ hready
  refine ⟨s.vec.accumulateFor i, exec_of_ready hready, fun R C hR hC => ?_⟩
  intro a b sum hhigh hlow
  have hnew : (s.vec.accumulateFor i).tileElem (formSize i) (formTile i) R C =
      BitVec.ofInt (formSize i).bits sum := by
    rw [tileElem_accumulateFor _ _ hR hC, BitVec.ofInt_add, BitVec.ofInt_toInt]
    rfl
  rw [hnew, BitVec.toInt_ofInt_eq_self (esize_bits_pos _) hlow hhigh]

/-- Settles O29: a source of zeros adds nothing to any element. -/
theorem zeroSourceChangesNothing : Obligations.ZeroSourceChangesNothing := by
  intro s i _ hready hzero
  have hdot : ∀ R C, s.vec.dotFor i R C = 0 := by
    obtain hfirst | hsecond := hzero
    · exact dotFor_of_firstSource_zero s.vec i hfirst
    · exact dotFor_of_secondSource_zero s.vec i hsecond
  rw [exec_of_ready hready, accumulateFor_of_dotFor_zero s.vec i hdot]
  rfl

/-- Settles O30: every form's new tile is that of the form on single vectors. -/
theorem equalPairsActAsSingle : Obligations.EqualPairsActAsSingle :=
  fun _ _ _ _ _ hn hm =>
    ⟨fun hready da => usmop4a_forms_agree_of_equalPairs hready hn hm da _ _ _ _,
      fun hready da => usmop4a_forms_agree_of_equalPairs hready hn hm da _ _ _ _⟩

/-- Settles O31: the first execution changes no source, so the second adds what it added. -/
theorem runTwiceAddsTwice : Obligations.RunTwiceAddsTwice := by
  intro s i _ hready
  obtain ⟨t, hfirst, hsecond⟩ := exec_exec_of_ready hready hready
  obtain ⟨-, rfl⟩ := (exec_eq_next i s t).mp hfirst
  refine ⟨_, _, hfirst, hsecond, fun R C hR hC => ?_⟩
  have honce := tileElem_accumulateFor_sub s.vec i hR hC
  have htwice := tileElem_accumulateFor_sub (s.vec.accumulateFor i) i hR hC
  rw [dotFor_accumulateFor] at htwice
  exact htwice.trans honce.symm

/-- Settles O32: an element of the new tile is the old element plus the dot product of two of the
registers that the instruction names. -/
theorem resultDependsOnlyOnOperands : Obligations.ResultDependsOnlyOnOperands := by
  intro s i v _ hready hregisters htile
  exact ⟨_, _, exec_of_ready hready, exec_of_ready (s := { s with vec := v }) hready,
    fun R C hR hC => tileElem_accumulateFor_congr hregisters (htile R C hR hC) hR hC⟩

/-- Settles O8: fetch answers the word's bytes, and they decode as the word does. -/
theorem stepRunsDecodedInstruction : Obligations.StepRunsDecodedInstruction :=
  fun _ _ _ hon hdecode => step_of_decodeWord_ok hon hdecode

end Sys2Proof.Machine
end

section
/-! The page's operation text, loop by loop, is the closed form of the meanings (40_usmop4a.md R71,
R72, R75). -/

namespace Sys2Proof.Machine

open Sys2Proof

/-! ## Replacing elements of a vector -/

section SetElem
variable {l w : Nat}

/-- A bit of a vector with one element replaced. -/
theorem getLsbD_setElem (v : BitVec l) (i : Nat) (x : BitVec w) {b : Nat} (hb : b < l) :
    (setElem v i w x).getLsbD b =
      if i * w ≤ b ∧ b < i * w + w then x.getLsbD (b - i * w) else v.getLsbD b := by
  have hoffset : b - i * w < l := by omega
  simp only [setElem, BitVec.getLsbD_or, BitVec.getLsbD_and, BitVec.getLsbD_not,
    BitVec.getLsbD_shiftLeft, BitVec.getLsbD_setWidth, BitVec.getLsbD_allOnes, decide_eq_true hb,
    decide_eq_true hoffset, Bool.true_and]
  split
  · rename_i hin
    have hge : ¬ b < i * w := by omega
    have hlt : b - i * w < w := by omega
    simp [hge, hlt]
  · rename_i hout
    obtain hlt | hge : b < i * w ∨ w ≤ b - i * w := by omega
    · simp [hlt]
    · simp [hge]

/-- The replaced element, and any other. -/
theorem elem_setElem (v : BitVec l) (i j : Nat) (x : BitVec w) (hfit : (j + 1) * w ≤ l) :
    elem (setElem v i w x) j w = if i = j then x else elem v j w := by
  apply BitVec.eq_of_getLsbD_eq
  intro k hk
  rw [Nat.succ_mul] at hfit
  rw [getLsbD_elem, getLsbD_setElem v i x (by omega), decide_eq_true hk, Bool.true_and]
  by_cases hij : i = j
  · subst hij
    rw [if_pos ⟨Nat.le_add_right _ _, by omega⟩, if_pos rfl, Nat.add_sub_cancel_left]
  · have hout : ¬ (i * w ≤ j * w + k ∧ j * w + k < i * w + w) := by
      have hle : (i + 1) * w ≤ j * w ∨ (j + 1) * w ≤ i * w :=
        (Nat.lt_or_gt_of_ne hij).imp (Nat.mul_le_mul_right w) (Nat.mul_le_mul_right w)
      rw [Nat.succ_mul, Nat.succ_mul] at hle
      omega
    rw [if_neg hout, if_neg hij, getLsbD_elem, decide_eq_true hk, Bool.true_and]

/-- After the elements at a list of indices are replaced by the values of a function, an element has
its value if its index is listed or it had that value before. -/
theorem elem_foldl_setElem (f : Nat → BitVec w) (indices : List Nat) (v : BitVec l) (j : Nat)
    (hfit : (j + 1) * w ≤ l) (h : j ∈ indices ∨ elem v j w = f j) :
    elem (indices.foldl (fun v i => setElem v i w (f i)) v) j w = f j := by
  induction indices generalizing v with
  | nil => exact h.resolve_left List.not_mem_nil
  | cons i rest ih =>
    refine ih _ ?_
    rw [elem_setElem v i j (f i) hfit]
    obtain hmem | hval := h
    · obtain rfl | hrest := List.mem_cons.mp hmem
      · exact .inr (if_pos rfl)
      · exact .inl hrest
    · right
      split
      · rename_i hij
        rw [hij]
      · exact hval

end SetElem

/-! ## The page's loops -/

/-- The four products of the innermost loop, added one at a time, are the exact dot product. -/
theorem pageSum_eq {l : Nat} (p : PageVars) (hsub : p.subOp = false) (hop1 : p.op1Unsigned = true)
    (hop2 : p.op2Unsigned = false) (op1 op2 : BitVec l) (R C : Nat) (sum : BitVec p.esize.bits) :
    pageSum p op1 op2 R C sum =
      sum + BitVec.ofInt _ (containerDot (sourceBits p.esize) op1 op2 R C) := by
  have hrange : List.range 4 = [0, 1, 2, 3] := rfl
  simp only [pageSum, hrange, List.foldl_cons, List.foldl_nil, hsub, hop1, hop2, pageInteger,
    containerDot, elemProduct, sourceBits, BitVec.ofInt_add, BitVec.add_assoc, if_true,
    Bool.false_eq_true, if_false]

/-- The element indices of the page's loops over `outprod`, `row` and `col`, in their order, for a
tile whose quarters have `d` rows (R71). -/
def pageIndices (d : Nat) : List Nat :=
  (List.range 4).flatMap fun outprod => (List.range d).flatMap fun row =>
    (List.range d).map fun col => (outprod / 2 * d + row) * d * 2 + (outprod % 2 * d + col)

/-- The half that a place in a half is in. -/
theorem mul_add_div_of_lt (half : Nat) {d x : Nat} (hx : x < d) : (half * d + x) / d = half := by
  rw [Nat.mul_comm, Nat.mul_add_div (by omega), Nat.div_eq_of_lt hx, Nat.add_zero]

/-- A place in one of two halves is within them. -/
theorem mul_add_lt_two_mul {half d x : Nat} (hhalf : half < 2) (hx : x < d) :
    half * d + x < 2 * d := by
  interval_cases half <;> omega

/-- The loops reach every element of the tile. -/
theorem mem_pageIndices {d R C : Nat} (hR : R < 2 * d) (hC : C < 2 * d) :
    R * (2 * d) + C ∈ pageIndices d := by
  have hd : 0 < d := by omega
  have hrow : R / d < 2 := Nat.div_lt_of_lt_mul (by omega)
  have hcol : C / d < 2 := Nat.div_lt_of_lt_mul (by omega)
  have hquarter : R / d * 2 + C / d < 4 := by omega
  simp only [pageIndices, List.mem_flatMap, List.mem_map, List.mem_range]
  refine ⟨R / d * 2 + C / d, hquarter, R % d, Nat.mod_lt _ hd, C % d, Nat.mod_lt _ hd, ?_⟩
  rw [mul_add_div_of_lt _ hcol, Nat.mul_add_mod_self_right, Nat.mod_eq_of_lt hcol,
    Nat.div_add_mod', Nat.div_add_mod']
  ring

section PageResult
variable {vl : VecLen} (v : VectorState vl) (p : PageVars)

/-- The page's register of a source is the meaning's. -/
theorem ofNat_add_eq_sourceRegister (first count half : Nat) :
    Fin.ofNat 32 (first + (count - 1) * half) =
      sourceRegister (Fin.ofNat 32 first) count half := by
  apply Fin.ext
  simp [sourceRegister, Fin.val_add]

/-- The new element that the meanings give at an index of the tile as one vector. -/
def VectorState.newElemAt (j : Nat) : BitVec p.esize.bits :=
  v.newElem p.esize p.nreg p.mreg p.da (Fin.ofNat 32 p.n) (Fin.ofNat 32 p.m)
    (j / (2 * dim vl p.esize)) (j % (2 * dim vl p.esize))

theorem newElemAt_mul_add (R : Nat) {C : Nat} (hC : C < 2 * dim vl p.esize) :
    v.newElemAt p (R * (2 * dim vl p.esize) + C) =
      v.newElem p.esize p.nreg p.mreg p.da (Fin.ofNat 32 p.n) (Fin.ofNat 32 p.m) R C := by
  rw [VectorState.newElemAt, mul_add_div_of_lt R hC, Nat.mul_add_mod_self_right,
    Nat.mod_eq_of_lt hC]

variable (hsub : p.subOp = false) (hop1 : p.op1Unsigned = true) (hop2 : p.op2Unsigned = false)
include hsub hop1 hop2

/-- One turn of the page's loops computes the new element of the meanings. -/
theorem pageSum_eq_newElemAt {rowHv colHv row col : Nat} (hrowHv : rowHv < 2) (hcolHv : colHv < 2)
    (hrow : row < dim vl p.esize) (hcol : col < dim vl p.esize) :
    pageSum p (v.readZ (Fin.ofNat 32 (p.n + (p.nreg - 1) * colHv)))
        (v.readZ (Fin.ofNat 32 (p.m + (p.mreg - 1) * rowHv))) (rowHv * dim vl p.esize + row)
        (colHv * dim vl p.esize + col)
        (elem (v.zaTile p.esize p.da) ((rowHv * dim vl p.esize + row) * dim vl p.esize * 2 +
          (colHv * dim vl p.esize + col)) p.esize.bits) =
      v.newElemAt p ((rowHv * dim vl p.esize + row) * dim vl p.esize * 2 +
        (colHv * dim vl p.esize + col)) := by
  have hR := mul_add_lt_two_mul hrowHv hrow
  have hC := mul_add_lt_two_mul hcolHv hcol
  have hindex (R : Nat) : R * dim vl p.esize * 2 = R * (2 * dim vl p.esize) := by ring
  have hold := tileIsRowMajor vl v p.esize p.da _ _ hR hC
  rw [mul_assoc] at hold
  rw [hindex, newElemAt_mul_add v p _ hC, hold, pageSum_eq p hsub hop1 hop2,
    newElem_eq_tileElem_add, mul_add_div_of_lt _ hrow, mul_add_div_of_lt _ hcol,
    ofNat_add_eq_sourceRegister, ofNat_add_eq_sourceRegister]

/-- The page's loops put the new element of the meanings at each index they reach. -/
theorem pageResult_eq_foldl (result : BitVec (tileSize vl p.esize)) :
    v.pageResult p result = (pageIndices (dim vl p.esize)).foldl
      (fun tile j => setElem tile j p.esize.bits (v.newElemAt p j)) result := by
  simp only [VectorState.pageResult, pageIndices, List.foldl_flatMap, List.foldl_map]
  refine List.foldl_ext _ _ _ fun tile outprod houtprod => ?_
  refine List.foldl_ext _ _ _ fun tile row hrow => ?_
  refine List.foldl_ext _ _ _ fun tile col hcol => ?_
  rw [List.mem_range] at houtprod hrow hcol
  rw [pageSum_eq_newElemAt v p hsub hop1 hop2 (by omega) (by omega) hrow hcol]

/-- Every element of the page's result is the new element of the meanings, whatever the variable
`result` held before. -/
theorem elem_pageResult (result : BitVec (tileSize vl p.esize)) {R C : Nat}
    (hR : R < side vl p.esize) (hC : C < side vl p.esize) :
    elem (v.pageResult p result) (R * side vl p.esize + C) p.esize.bits =
      v.newElem p.esize p.nreg p.mreg p.da (Fin.ofNat 32 p.n) (Fin.ofNat 32 p.m) R C := by
  have hindex : R * side vl p.esize + C < side vl p.esize * side vl p.esize := by
    have hle : (R + 1) * side vl p.esize ≤ side vl p.esize * side vl p.esize :=
      Nat.mul_le_mul_right _ hR
    rw [Nat.succ_mul] at hle
    omega
  have hfit : (R * side vl p.esize + C + 1) * p.esize.bits ≤ tileSize vl p.esize := by
    calc (R * side vl p.esize + C + 1) * p.esize.bits
        ≤ side vl p.esize * side vl p.esize * p.esize.bits := Nat.mul_le_mul_right _ hindex
      _ = tileSize vl p.esize := by rw [mul_assoc, side_mul_bits, side_mul_vl_bits]
  rw [pageResult_eq_foldl v p hsub hop1 hop2,
    elem_foldl_setElem (v.newElemAt p) _ _ _ hfit (.inl (mem_pageIndices hR hC))]
  exact newElemAt_mul_add v p R hC

end PageResult

/-! ## Writing the tile as one vector -/

/-- Writing a tile as one vector is writing its elements, row after row (10_state.md R24). -/
theorem setZaTile_eq_writeTile {vl : VecLen} (v : VectorState vl) (es : ESize) (t : Nat)
    (tile : BitVec (tileSize vl es)) :
    v.setZaTile es t tile =
      v.writeTile es t fun R C => elem tile (R * side vl es + C) es.bits := by
  have hrow (R : Nat) : packElems es.bits vl.bits
      (fun C => elem tile (R * side vl es + C) es.bits) (side vl es) = elem tile R vl.bits := by
    rw [← packElems_elem vl es (elem tile R vl.bits)]
    refine packElems_congr fun C hC => ?_
    rw [← side_mul_bits vl es, elem_elem tile R C es.bits _ hC]
  simp only [VectorState.setZaTile, VectorState.writeTile, hrow]

/-- The page's operation text leaves what an execution leaves, for every form. -/
theorem pageOperation_eq_accumulateFor {vl : VecLen} (v : VectorState vl) (i : Instr)
    (result : BitVec (tileSize vl (pageVars i).esize)) :
    v.pageOperation (pageVars i) result = v.accumulateFor i := by
  have hsub : (pageVars i).subOp = false := by cases i <;> rfl
  have hop1 : (pageVars i).op1Unsigned = true := by cases i <;> rfl
  have hop2 : (pageVars i).op2Unsigned = false := by cases i <;> rfl
  have hform : v.accumulateFor i = v.accumulate (pageVars i).esize (pageVars i).nreg
      (pageVars i).mreg (pageVars i).da (Fin.ofNat 32 (pageVars i).n)
      (Fin.ofNat 32 (pageVars i).m) := by cases i <;> rfl
  rw [VectorState.pageOperation, setZaTile_eq_writeTile, hform]
  exact writeTile_congr v _ _ fun R C hR hC => elem_pageResult v _ hsub hop1 hop2 result hR hC

/-! ## The statement -/

/-- Settles O26: the page's loops write every element of the tile, each with the closed form's
value. -/
theorem pageOperationAgrees : Obligations.PageOperationAgrees := by
  intro s i _ hready result
  rw [exec_of_ready hready, pageOperation_eq_accumulateFor]
  rfl

end Sys2Proof.Machine
end

section
/-! The outcomes of an execution, and what a fault records (60_exceptions.md sections 1 to 3). -/

namespace Sys2Proof

/-! ## The word of a decoded instruction -/

/-- The only error of decoding a word is that no row hits it (R60). -/
theorem eq_matchesNoRow_of_decodeWord_eq_error {w : Word} {e : DecodeError}
    (h : decodeWord w = .error e) : e = .matchesNoRow w := by
  have hnone : ∀ r ∈ opcodeTable, r.hits w ≠ true := fun r hr hhit =>
    nomatch (decodeWord_of_hits hr hhit).symm.trans h
  rw [decodeWord_of_not_hits hnone] at h
  exact (Except.error.inj h).symm

/-- The word of what a row reads is the row's match bits with the fields read put in place. -/
theorem encode_read (k : Fin opcodeTable.length) (w : Word) :
    encode (opcodeTable[k].read w) =
      encodeFields opcodeTable[k].matchBits (w.extractLsb' 0 (tileWidth k)).toNat
        (firstRegister w) (secondRegister w) := by
  fin_cases k <;> rfl

/-- The word of a decoded instruction is the one it was decoded from. -/
theorem encode_of_decodeWord {w : Word} {i : Instr} (h : decodeWord w = .ok i) : encode i = w := by
  obtain ⟨r, hr, hhit, rfl⟩ := (decodeWord_eq_ok_iff w i).mp h
  obtain ⟨k, hk, rfl⟩ := List.mem_iff_getElem.mp hr
  obtain ⟨hmask, hclear⟩ := opcodeTable_fields ⟨k, hk⟩
  have hfixed : w &&& ~~~fieldBits (tileWidth k) = opcodeTable[k].matchBits := by
    rw [← (hits_eq_true _ w).mp hhit]
    exact congrArg (w &&& ·) hmask.symm
  exact (encode_read ⟨k, hk⟩ w).trans
    (encodeFields_fieldsOf (tileWidth_le k) hclear w hfixed)

end Sys2Proof

namespace Sys2Proof.Machine

open Sys2Proof

/-! ## The enable check, test by test (R102, decision D11) -/

section EnableCheck
variable {s : State}

theorem enableCheck_of_accessDisabled (haccess : s.cfg.smeAccessEnabled = false) :
    s.enableCheck = some .accessDisabled := by
  simp [State.enableCheck, haccess]

theorem enableCheck_of_notStreaming (haccess : s.cfg.smeAccessEnabled = true)
    (hsm : s.pstateSM = false) : s.enableCheck = some .notStreaming := by
  simp [State.enableCheck, haccess, hsm]

theorem enableCheck_of_zaDisabled (haccess : s.cfg.smeAccessEnabled = true)
    (hsm : s.pstateSM = true) (hza : s.pstateZA = false) : s.enableCheck = some .zaDisabled := by
  simp [State.enableCheck, haccess, hsm, hza]

variable (s) in
/-- The enable check gives a reason exactly when an enable is missing. -/
theorem exists_enableCheck_eq_some : (∃ reason, s.enableCheck = some reason) ↔ ¬ s.Enabled := by
  rw [State.Enabled, ← enableCheck_eq_none, ← Option.ne_none_iff_exists']

end EnableCheck

/-! ## The outcomes of exec -/

section Exec
variable (i : Instr) (s : State)

/-- When an instruction faults, and how: a missing feature comes before the enable check (R102,
R103). -/
theorem exec_eq_fault (f : Fault) : exec i s = .fault f ↔
    ¬ HasFeatures s.cfg (formSize i) ∧ f = .undefined s.pc (encode i) ∨
    HasFeatures s.cfg (formSize i) ∧
      ∃ reason, s.enableCheck = some reason ∧ f = .smeAccess reason s.pc (encode i) := by
  rw [exec_eq_usmop4a, usmop4a_eq_fault, ← implemented_iff, Bool.not_eq_true]

variable {i s} in
/-- With the features there, the reason of the enable check is the fault's. -/
theorem exec_of_enableCheck_eq_some {reason : AccessReason}
    (hfeatures : HasFeatures s.cfg (formSize i)) (hcheck : s.enableCheck = some reason) :
    exec i s = .fault (.smeAccess reason s.pc (encode i)) :=
  (exec_eq_fault i s _).mpr (.inr ⟨hfeatures, reason, hcheck, rfl⟩)

/-- The enable check's fault is raised exactly when the features are there and an enable is
missing. -/
theorem exec_smeAccess_iff : (∃ reason pc w, exec i s = .fault (.smeAccess reason pc w)) ↔
    HasFeatures s.cfg (formSize i) ∧ ¬ s.Enabled := by
  rw [← exists_enableCheck_eq_some]
  constructor
  · rintro ⟨_, _, _, hexec⟩
    obtain ⟨-, hundefined⟩ | ⟨hfeatures, reason, hcheck, -⟩ := (exec_eq_fault i s _).mp hexec
    · exact nomatch hundefined
    · exact ⟨hfeatures, reason, hcheck⟩
  · rintro ⟨hfeatures, reason, hcheck⟩
    exact ⟨reason, _, _, exec_of_enableCheck_eq_some hfeatures hcheck⟩

/-- An instruction completes exactly when the features are there and everything is enabled. -/
theorem exec_next_iff : (∃ t, exec i s = .next t) ↔ s.Ready (formSize i) := by
  simp only [exec_eq_next, exists_and_left, exists_eq, and_true]

/-- The Z registers and the ZA array do not decide whether an instruction faults, nor how. -/
theorem exec_eq_fault_congr_vec (v : VectorState s.cfg.vl) (f : Fault) :
    exec i s = .fault f ↔ exec i { s with vec := v } = .fault f := by
  rw [exec_eq_fault, exec_eq_fault]
  rfl

end Exec

/-! ## What a step does -/

/-- A step refuses, or executes the instruction that the word at the pc decodes to (R70). -/
theorem step_cases (s : State) : (∃ r, step s = .refused r) ∨
    ∃ w i, s.OnWord w ∧ decodeWord w = .ok i ∧ step s = exec i s := by
  cases hfetch : s.fetch with
  | error r => exact .inl ⟨r, step_of_fetch_error hfetch⟩
  | ok bs =>
    obtain ⟨w, hon, rfl⟩ := (fetch_iff_onWord s bs).mp hfetch
    cases hdecode : decodeWord w with
    | error e =>
      obtain rfl := eq_matchesNoRow_of_decodeWord_eq_error hdecode
      exact .inl ⟨_, step_of_decodeWord_error hon hdecode⟩
    | ok i => exact .inr ⟨w, i, hon, hdecode, step_of_decodeWord_ok hon hdecode⟩

/-! ## The statements -/

/-- Settles O38: the causes exclude each other and leave no fourth case, and none of them mentions
the vector registers. -/
theorem threeOutcomes : Obligations.ThreeOutcomes := by
  intro i s
  refine ⟨?_, exec_undefined_iff i s, exec_smeAccess_iff i s, exec_next_iff i s,
    exec_eq_fault_congr_vec i s⟩
  rw [exec_next_iff, exec_undefined_iff, exec_smeAccess_iff]
  by_cases hfeatures : HasFeatures s.cfg (formSize i)
  · by_cases henabled : s.Enabled
    · exact .inl ⟨hfeatures, henabled⟩
    · exact .inr (.inr ⟨hfeatures, henabled⟩)
  · exact .inr (.inl hfeatures)

/-- Settles O40: each clause is the test of the enable check that fails first. -/
theorem enableCheckOrder : Obligations.EnableCheckOrder :=
  fun _ _ hfeatures =>
    ⟨fun haccess =>
      exec_of_enableCheck_eq_some hfeatures (enableCheck_of_accessDisabled haccess),
    fun haccess hsm =>
      exec_of_enableCheck_eq_some hfeatures (enableCheck_of_notStreaming haccess hsm),
    fun haccess hsm hza =>
      exec_of_enableCheck_eq_some hfeatures (enableCheck_of_zaDisabled haccess hsm hza)⟩

/-- Settles O41: a step faults only by executing the decoded word, and encoding the instruction gives
that word back. -/
theorem faultRecordsPcAndWord : Obligations.FaultRecordsPcAndWord := by
  intro s f hfault
  obtain ⟨r, hrefused⟩ | ⟨w, i, hon, hdecode, hstep⟩ := step_cases s
  · exact nomatch hrefused.symm.trans hfault
  · refine ⟨w, i, hon, hdecode, ?_⟩
    rw [hstep, exec_eq_fault, encode_of_decodeWord hdecode] at hfault
    obtain ⟨-, hundefined⟩ | ⟨-, reason, -, haccess⟩ := hfault
    · exact .inl hundefined
    · exact .inr ⟨reason, haccess⟩

end Sys2Proof.Machine
end

section
/-! Steps completed: when a step completes, how many a program has left, and what the launch of a word
makes the next one run (70_reset_and_hazards.md sections 1, 2 and 5). -/

namespace Sys2Proof.Machine

open Sys2Proof

/-! ## The words left -/

/-- A completed step leaves one word fewer to run (R124). -/
theorem wordsLeft_of_step_eq_next {s t : State} (h : step s = .next t) :
    s.wordsLeft = t.wordsLeft + 1 := by
  obtain ⟨hok, hword⟩ := atWord_of_step_eq_next h
  obtain ⟨v, -, rfl⟩ := stepChangesOnlyZaAndPc s t h
  have hnext := pc_add_four_toNat hok hword
  rw [programOk_iff] at hok
  rw [atWord_iff] at hword
  simp only [State.wordsLeft, State.endAddress, hnext]
  omega

/-- A run completes no more steps than words are left (R124). -/
theorem le_wordsLeft_of_run_eq_next {k : Nat} {s t : State} (h : core.run k s = .next t) :
    k ≤ s.wordsLeft := by
  induction k generalizing s with
  | zero => exact Nat.zero_le _
  | succ k ih =>
    obtain ⟨u, hstep, hrest⟩ := (run_succ_eq_next k s t).mp h
    rw [wordsLeft_of_step_eq_next hstep]
    exact Nat.succ_le_succ (ih hrest)

/-! ## The launch of one word -/

/-- Storing the bytes of a word at an address makes it stand there (R42). -/
theorem holdsWord_writeBytes {mem : Memory} (hwf : mem.wf) (a : Addr) (w : Word) :
    (mem.writeBytes a (bytesOfWord w)).HoldsWord a w := by
  have h2 : a + 1 + 1 = a + 2 := by bv_omega
  have h3 : a + 2 + 1 = a + 3 := by bv_omega
  have hwf1 := write_wf mem a (w.extractLsb' 0 8) hwf
  have hwf2 := write_wf _ (a + 1) (w.extractLsb' 8 8) hwf1
  have hwf3 := write_wf _ (a + 2) (w.extractLsb' 16 8) hwf2
  simp only [bytesOfWord, Memory.writeBytes, h2, h3, Memory.HoldsWord, read_write _ _ _ _ hwf,
    read_write _ _ _ _ hwf1, read_write _ _ _ _ hwf2, read_write _ _ _ _ hwf3]
  simp

/-- A one-word program launched where a program can stand has the pc on its word (R45, R120). -/
theorem onWord_launch_singleton {s : State} (hwf : s.mem.wf) {base : Addr}
    (haligned : base.toNat % 4 = 0) (hend : base.toNat + 4 < 2 ^ 64) (w : Word) :
    (s.launch base [w]).OnWord w := by
  refine ⟨?_, ?_, ?_⟩
  · rw [programOk_iff]
    exact ⟨haligned, hend⟩
  · rw [atWord_iff]
    exact ⟨le_rfl, by simp, haligned⟩
  · simpa only [launch_mem, launch_pc, List.flatMap_singleton] using holdsWord_writeBytes hwf base w

/-- A program of one word can stand where the model launches it (R45). -/
theorem launchBase_allowed (s : State) :
    s.launchBase.toNat % 4 = 0 ∧ s.launchBase.toNat + 4 < 2 ^ 64 := by
  unfold State.launchBase
  split
  · assumption
  · decide

/-- The launch of a word puts the pc on that word (R120, decision D12). -/
theorem onWord_withFetchWord {s : State} (hwf : s.mem.wf) (w : Word) :
    (s.withFetchWord 32 w.toNat).OnWord w := by
  obtain ⟨haligned, hend⟩ := launchBase_allowed s
  rw [State.withFetchWord, Nat.mod_eq_of_lt w.isLt, BitVec.ofNat_toNat, BitVec.setWidth_eq]
  exact onWord_launch_singleton hwf haligned hend w

/-! ## The statements -/

/-- Settles O14: each completed step uses up a word, so no run completes one more than are left. -/
theorem runEndsWithinProgram : Obligations.RunEndsWithinProgram :=
  fun s _ _ hrun => Nat.not_succ_le_self s.wordsLeft (le_wordsLeft_of_run_eq_next hrun)

/-- Settles O16: a step that does not refuse executes the word at the pc, and that completes exactly
when the machine is ready for it. -/
theorem stepCompletesWhenReady : Obligations.StepCompletesWhenReady := by
  intro s
  constructor
  · rintro ⟨t, hnext⟩
    obtain ⟨r, hrefused⟩ | ⟨w, i, hon, hdecode, hstep⟩ := step_cases s
    · exact nomatch hrefused.symm.trans hnext
    · exact ⟨w, i, hon, hdecode, (exec_next_iff i s).mp ⟨t, hstep ▸ hnext⟩⟩
  · rintro ⟨w, i, hon, hdecode, hready⟩
    rw [step_of_decodeWord_ok hon hdecode]
    exact (exec_next_iff i s).mpr hready

/-- Settles O17: the launch puts the pc on the word, and a step on a word that decodes runs it. -/
theorem launchedWordRunsNext : Obligations.LaunchedWordRunsNext :=
  fun _ w _ hwf hdecode => step_of_decodeWord_ok (onWord_withFetchWord hwf w) hdecode

end Sys2Proof.Machine
end

section
/-! Decoding and encoding undo each other: an instruction is its row of the opcode map and the values of
the three fields (30_encoding.md section 3). -/

namespace Sys2Proof

open Sys2Proof.Laws.EncodesInRow

/-! ## An instruction as a row and field values -/

/-- The values an instruction has for the three fields: its tile and its two registers (R54). -/
def Instr.fields : Instr → Nat × Fin 32 × Fin 32
  | .usmop4aS12 da n m | .usmop4aS11 da n m | .usmop4aS21 da n m | .usmop4aS22 da n m => (da, n, m)
  | .usmop4aD12 da n m | .usmop4aD11 da n m | .usmop4aD21 da n m | .usmop4aD22 da n m => (da, n, m)

theorem rowOf_lt (i : Instr) : rowOf i < opcodeTable.length := by
  cases i <;> simp [rowOf, opcodeTable]

/-- The row of the opcode map that stands for an instruction's form. -/
def Instr.row (i : Instr) : Fin opcodeTable.length := ⟨rowOf i, rowOf_lt i⟩

/-- A well-formed instruction is one whose values fit in the fields of its row (R54, R62). -/
theorem wellFormed_iff_fields_mem (i : Instr) :
    i.wellFormed = true ↔ i.fields ∈ fieldValues (tileWidth i.row) := by
  cases i <;>
    simp [Instr.wellFormed, Instr.fields, Instr.row, rowOf, tileWidth, fieldValues, Fin.is_lt]

/-- An instruction's word is its row's match bits with its values put in place. -/
theorem encode_eq_encodeFields (i : Instr) : encode i =
    encodeFields opcodeTable[i.row].matchBits i.fields.1 i.fields.2.1 i.fields.2.2 := by
  cases i <;> rfl

/-- The row of an instruction reads that instruction from the words whose fields have its values. -/
theorem read_eq_iff_fieldsOf_eq (i : Instr) (w : Word) :
    opcodeTable[i.row].read w = i ↔ fieldsOf (tileWidth i.row) w = i.fields := by
  cases i <;>
    simp [Instr.fields, Instr.row, rowOf, tileWidth, fieldsOf, opcodeTable, Fin.ext_iff]

/-- A word decodes to an instruction exactly when it is of the instruction's row and its fields have
the instruction's values (R58). -/
theorem decodeWord_eq_ok_iff_fields (w : Word) (i : Instr) : decodeWord w = .ok i ↔
    opcodeTable[i.row].hits w = true ∧ fieldsOf (tileWidth i.row) w = i.fields := by
  have hrow : opcodeTable[rowOf i]? = some opcodeTable[i.row] :=
    List.getElem?_eq_getElem (rowOf_lt i)
  simp only [decodeWord_eq_ok_iff_rowOf, hrow, Option.some.injEq, exists_eq_left',
    read_eq_iff_fieldsOf_eq]

/-! ## The two round trips -/

/-- The word of a well-formed instruction decodes to it: putting the values in place leaves the row's
fixed bits, and the fields then have those values. -/
theorem decodeWord_encode {i : Instr} (hwf : i.wellFormed = true) :
    decodeWord (encode i) = .ok i := by
  have hvalues := (wellFormed_iff_fields_mem i).mp hwf
  have hwidth := tileWidth_le i.row
  obtain ⟨hmask, hclear⟩ := opcodeTable_fields i.row
  rw [decodeWord_eq_ok_iff_fields, hits_eq_true, hmask, encode_eq_encodeFields]
  exact ⟨encodeFields_and_not_fieldBits hwidth hclear hvalues,
    fieldsOf_encodeFields hwidth hclear hvalues⟩

/-- What a word decodes to is well formed: no value of a field is reserved (R54). -/
theorem wellFormed_of_decodeWord {w : Word} {i : Instr} (h : decodeWord w = .ok i) :
    i.wellFormed = true := by
  obtain ⟨-, hfields⟩ := (decodeWord_eq_ok_iff_fields w i).mp h
  rw [wellFormed_iff_fields_mem, ← hfields]
  exact fieldsOf_mem _ w

/-! ## The statements -/

/-- Settles O5: the word decodes to the instruction, and decoding a word's bytes is decoding the
word. -/
theorem decodeEncodeIdentity : Obligations.DecodeEncodeIdentity := by
  intro i hwf
  refine ⟨decodeWord_encode hwf, fun rest => ?_⟩
  rw [decodeBytes_bytesOfWord, decodeWord_encode hwf]

/-- Settles O6: a word's fields always hold values of a well-formed instruction, and put back in place
they give the word. -/
theorem encodeDecodeIdentity : Obligations.EncodeDecodeIdentity :=
  fun _ _ hdecode => ⟨wellFormed_of_decodeWord hdecode, encode_of_decodeWord hdecode⟩

/-- Settles O1, by evaluating the decoder on the nine words. -/
theorem sampleWordsDecode : Obligations.SampleWordsDecode := by
  refine ⟨?_, ?_, ?_, ?_, ?_, ?_, ?_, ?_, ?_⟩ <;> decide

end Sys2Proof
end

section
/-! The launches that are refused, and where a run stops without executing (20_memory.md R43, R45;
70_reset_and_hazards.md R124). -/

namespace Sys2Proof.Machine

open Sys2Proof

section Refusals
variable {s : State}

/-- A program that the rules do not allow is not fetched from (R45). -/
theorem fetch_of_not_programOk (hok : ¬ s.programOk = true) :
    s.fetch = .error (.badProgram s.programBase s.programLength) := by
  simp [State.fetch, hok]

/-- Off the words and the end of an allowed program there is nothing to fetch (R43, R124). -/
theorem fetch_of_not_atWord (hok : s.programOk = true) (hend : ¬ s.atEnd = true)
    (hword : ¬ s.atWord = true) : s.fetch = .error (.badPc s.pc) := by
  simp [State.fetch, hok, hend, hword]

/-- In an allowed program the pc is on a word exactly when it is a multiple of 4 above the base. -/
theorem atWord_iff_exists_index (hok : s.programOk = true) : s.atWord = true ↔
    ∃ i < s.programLength, s.pc.toNat = s.programBase.toNat + 4 * i := by
  obtain ⟨haligned, -⟩ := (programOk_iff s).mp hok
  rw [atWord_iff]
  constructor
  · rintro ⟨hbase, hend, hpc⟩
    exact ⟨(s.pc.toNat - s.programBase.toNat) / 4, by omega, by omega⟩
  · rintro ⟨i, hi, hpc⟩
    omega

end Refusals

/-! ## The statement -/

/-- Settles O10: the three reasons of fetch, in its order of tests, are those of the step. -/
theorem launchAndEndRefusals : Obligations.LaunchAndEndRefusals := by
  intro s
  have hbad : (s.programBase.toNat % 4 ≠ 0 ∨
      2 ^ 64 ≤ s.programBase.toNat + 4 * s.programLength) ↔ ¬ s.programOk = true := by
    rw [programOk_iff, not_and_or, not_lt]
  simp only [hbad, ite_not, ← atEnd_iff]
  split_ifs with hok hend
  · exact step_of_fetch_error (fetch_of_atEnd hok hend)
  · rw [← atWord_iff_exists_index hok]
    exact fun hword => step_of_fetch_error (fetch_of_not_atWord hok hend hword)
  · exact step_of_fetch_error (fetch_of_not_programOk hok)

end Sys2Proof.Machine
end
